-- ==== Sys2Proof/Word.lean ====
section
/-! DEFINITION. The word types of the perf-aware 8086-subset core (00_scope.md R7, R10). -/

namespace Sys2Proof

/-- A `u8`: a byte of the program buffer or of data memory, a byte view of a register cell. -/
abbrev Byte := BitVec 8

/-- A `u16`: a register cell, a data address (20_memory.md R36), a 16-bit displacement or immediate. -/
abbrev Word := BitVec 16

/-- A `u32`: a fault's information word (10_state.md R22), a held `Imm` or `Rel` (30_encoding.md R53). -/
abbrev DWord := BitVec 32

end Sys2Proof
end

