-- ==== Sys2Proof/Config.lean ====
section
/-! DEFINITION. The configurable parameters (00_scope.md R8), the run modes, and the fault codes
(60_exceptions.md R138). Every legal value of every parameter is modelled. The rules leave no
architectural value free (93_implementation_defined.md section 1), so there is no free value here. -/

namespace Sys2Proof

/-- `RESET_POLICY` (R8, D7): the value of registers, flags and data memory at the start of a run. -/
inductive ResetPolicy where
  | zero
  | undefined
deriving DecidableEq, Repr

/-- `WORD_AT_FFFF` (R8, D5): the address of the second byte of a word access at 0xFFFF. -/
inductive WordAtFFFF where
  | wrap16
  | linear
deriving DecidableEq, Repr

/-- `BYTE_SF_RULE` (R8, D17): how SF is computed for an 8-bit `sub` or `cmp`. -/
inductive ByteSfRule where
  | msb8
  | bit15Zext
deriving DecidableEq, Repr

/-- `GRP1_OTHER_POLICY` (R8, D14): decode of 0x80-0x83 with a sub-operation that is not 000, 101 or 111. -/
inductive Grp1OtherPolicy where
  | fault
  | mov
deriving DecidableEq, Repr

/-- `BRANCH_EXEC_POLICY` (R8, D13): execution of the 19 jump/loop instructions other than `jne`. -/
inductive BranchExecPolicy where
  | fault
  | fallthrough
  | arch8086
deriving DecidableEq, Repr

/-- `MODE` (10_state.md R25, 40_sequencer.md R82). -/
inductive Mode where
  | decodeOnly
  | execute
deriving DecidableEq, Repr

/-- The parameters of R8 that are fixed for the machine. -/
structure Config where
  /-- `BUF_CAP`: program buffer capacity in bytes. -/
  bufCap : Nat
  /-- `MEM_SIZE`: data memory size in bytes. -/
  memSize : Nat
  /-- `IP_W`: width of the instruction pointer in bits. -/
  ipW : Nat
  resetPolicy : ResetPolicy
  wordAtFFFF : WordAtFFFF
  byteSfRule : ByteSfRule
  grp1Other : Grp1OtherPolicy
  branchExec : BranchExecPolicy
deriving DecidableEq, Repr

/-- The "default" column of R8. -/
def Config.spec : Config where
  bufCap := 2 ^ 20
  memSize := 2 ^ 20
  ipW := 32
  resetPolicy := .zero
  wordAtFFFF := .wrap16
  byteSfRule := .msb8
  grp1Other := .fault
  branchExec := .fault

/-- The "legal values" column of R8. -/
abbrev Config.wf (c : Config) : Prop :=
  2 ^ 20 ≤ c.bufCap ∧ 2 ^ 20 ≤ c.memSize ∧ c.bufCap < 2 ^ c.ipW

/-- The fault codes of R138, and `none` for 0. -/
inductive FaultCode where
  | none
  | unrecognizedOpcode
  | truncated
  | unsupportedSubop
  | unsupportedOperand
  | unimplementedBranch
  | branchOutOfRange
  | inputTooLarge
  | uninitialisedRead
deriving DecidableEq, Repr

/-- The number the host reads in `FAULT_CODE` (10_state.md R22, 60_exceptions.md R138). -/
def FaultCode.number : FaultCode → Nat
  | .none => 0
  | .unrecognizedOpcode => 1
  | .truncated => 2
  | .unsupportedSubop => 3
  | .unsupportedOperand => 4
  | .unimplementedBranch => 5
  | .branchOutOfRange => 6
  | .inputTooLarge => 7
  | .uninitialisedRead => 8

/-- The two arguments of `raise Fault(CODE, info)` (60_exceptions.md R139). -/
structure Trap where
  code : FaultCode
  info : DWord
deriving DecidableEq, Repr

end Sys2Proof
end

