-- ==== Sys2Proof/Syntax.lean ====
section
/-! DEFINITION. The instructions: one constructor of `Instr` for each row of spec/opcode_table.json,
holding every bit of the encoding that the row leaves to the program. -/

namespace Sys2Proof

/-- The width flag `w` (00_scope.md R10): `W = 8` or `W = 16`. -/
inductive Width where
  | byte
  | word
deriving DecidableEq, Repr

/-- The direction bit `d` of format RM (30_encoding.md R58): `toRm` is d = 0 (the r/m operand is the
destination), `toReg` is d = 1 (the reg operand is). -/
inductive Dir where
  | toRm
  | toReg
deriving DecidableEq, Repr

/-- The 16 register views (10_state.md R15). -/
inductive Reg where
  | ax | bx | cx | dx | sp | bp | si | di
  | al | ah | bl | bh | cl | ch | dl | dh
deriving DecidableEq, Repr

/-- The eight base/index combinations of a memory operand (20_memory.md R35). -/
inductive Base where
  | bxSi | bxDi | bpSi | bpDi | si | di | bp | bx
deriving DecidableEq, Repr

/-- The nine base selectors of a memory operand (20_memory.md R35). -/
inductive Selector where
  | direct
  | base (b : Base)
deriving DecidableEq, Repr

/-- The r/m operand with the addressing form that encodes it (30_encoding.md R57). -/
inductive RM where
  /-- mod = 11 -/
  | reg (r : Reg)
  /-- mod = 00, rm = 110: the 16-bit address -/
  | direct (addr : Word)
  /-- mod = 00, rm other: no displacement -/
  | base (b : Base)
  /-- mod = 01: one displacement byte, sign-extended -/
  | disp8 (b : Base) (d : Byte)
  /-- mod = 10: two displacement bytes -/
  | disp16 (b : Base) (d : Word)
deriving DecidableEq, Repr

/-- Which opcode bytes gave a `mov` immediate to register/memory: 0xC6/0xC7 with the ignored bits 5:3 of
its ModRM byte (30_encoding.md R59, R73), or, under `GRP1_OTHER_POLICY = mov`, 0x80-0x83 with its s bit
and a sub-operation outside the subset (R72). -/
inductive MovImmEnc where
  | irm (x : BitVec 3)
  | grp1 (s : Bool) (sub : BitVec 3)
deriving DecidableEq, Repr

/-- The instructions. `imm` is the operand value of 30_encoding.md R61 (zero-extended when `w = 0`, already
sign-extended when `w = 1` and `s = 1`); `rel` is the signed displacement byte of R65. -/
inductive Instr where
  | movRmReg (d : Dir) (w : Width) (reg : Reg) (rm : RM)
  | movImmRm (enc : MovImmEnc) (w : Width) (rm : RM) (imm : Word)
  | movImmReg (w : Width) (reg : Reg) (imm : Word)
  | movMemAcc (w : Width) (addr : Word)
  | movAccMem (w : Width) (addr : Word)
  | addRmReg (d : Dir) (w : Width) (reg : Reg) (rm : RM)
  | addImmRm (s : Bool) (w : Width) (rm : RM) (imm : Word)
  | addImmAcc (w : Width) (imm : Word)
  | subRmReg (d : Dir) (w : Width) (reg : Reg) (rm : RM)
  | subImmRm (s : Bool) (w : Width) (rm : RM) (imm : Word)
  | subImmAcc (w : Width) (imm : Word)
  | cmpRmReg (d : Dir) (w : Width) (reg : Reg) (rm : RM)
  | cmpImmRm (s : Bool) (w : Width) (rm : RM) (imm : Word)
  | cmpImmAcc (w : Width) (imm : Word)
  | jo (rel : Byte)
  | jno (rel : Byte)
  | jb (rel : Byte)
  | jnb (rel : Byte)
  | je (rel : Byte)
  | jne (rel : Byte)
  | jbe (rel : Byte)
  | jnbe (rel : Byte)
  | js (rel : Byte)
  | jns (rel : Byte)
  | jp (rel : Byte)
  | jnp (rel : Byte)
  | jl (rel : Byte)
  | jnl (rel : Byte)
  | jle (rel : Byte)
  | jnle (rel : Byte)
  | jcxz (rel : Byte)
  | loop (rel : Byte)
  | loopz (rel : Byte)
  | loopnz (rel : Byte)
deriving DecidableEq, Repr

end Sys2Proof
end

