-- ==== Sys2Proof/Decode.lean ====
section
/-! DEFINITION. The instruction decoder (30_encoding.md), total on any bytes and rejecting by the fault the
spec names, and the encoder written from the same tables. -/

namespace Sys2Proof

/-! ### Bits and bytes (00_scope.md R9, R10) -/

/-- `hi:lo`, the concatenation of two bytes (R9). -/
def joinBytes (hi lo : Byte) : Word := hi ++ lo

/-- `v[7:0]`. -/
def loByte (v : Word) : Byte := v.extractLsb' 0 8

/-- `v[15:8]`. -/
def hiByte (v : Word) : Byte := v.extractLsb' 8 8

/-- `sext_16` of a byte (R10). -/
def sext16 (b : Byte) : Word := b.signExtend 16

/-- `zext_16` of a byte (R10). -/
def zext16 (b : Byte) : Word := b.setWidth 16

def Width.ofBit : Bool → Width
  | false => .byte
  | true => .word

def Width.bit : Width → Bool
  | .byte => false
  | .word => true

/-- W of R10. -/
def Width.bits : Width → Nat
  | .byte => 8
  | .word => 16

/-- W/8. -/
def Width.bytes : Width → Nat
  | .byte => 1
  | .word => 2

def Dir.ofBit : Bool → Dir
  | false => .toRm
  | true => .toReg

def Dir.bit : Dir → Bool
  | .toRm => false
  | .toReg => true

/-! ### Field tables (30_encoding.md R56, R57) -/

/-- `REGTAB[code][w]` (R56). -/
def regTab (code : BitVec 3) : Width → Reg
  | .byte =>
    if code = 0b000 then .al else if code = 0b001 then .cl else if code = 0b010 then .dl
    else if code = 0b011 then .bl else if code = 0b100 then .ah else if code = 0b101 then .ch
    else if code = 0b110 then .dh else .bh
  | .word =>
    if code = 0b000 then .ax else if code = 0b001 then .cx else if code = 0b010 then .dx
    else if code = 0b011 then .bx else if code = 0b100 then .sp else if code = 0b101 then .bp
    else if code = 0b110 then .si else .di

/-- The width column of 10_state.md R15. -/
def Reg.width : Reg → Width
  | .ax | .bx | .cx | .dx | .sp | .bp | .si | .di => .word
  | .al | .ah | .bl | .bh | .cl | .ch | .dl | .dh => .byte

/-- The code column of R56. -/
def Reg.code : Reg → BitVec 3
  | .al | .ax => 0b000
  | .cl | .cx => 0b001
  | .dl | .dx => 0b010
  | .bl | .bx => 0b011
  | .ah | .sp => 0b100
  | .ch | .bp => 0b101
  | .dh | .si => 0b110
  | .bh | .di => 0b111

/-- `EATAB[rm]` (R57). -/
def eaTab (rm : BitVec 3) : Base :=
  if rm = 0b000 then .bxSi else if rm = 0b001 then .bxDi else if rm = 0b010 then .bpSi
  else if rm = 0b011 then .bpDi else if rm = 0b100 then .si else if rm = 0b101 then .di
  else if rm = 0b110 then .bp else .bx

/-- The rm code of a base (R57). -/
def Base.code : Base → BitVec 3
  | .bxSi => 0b000
  | .bxDi => 0b001
  | .bpSi => 0b010
  | .bpDi => 0b011
  | .si => 0b100
  | .di => 0b101
  | .bp => 0b110
  | .bx => 0b111

/-! ### Length (30_encoding.md R66) -/

/-- `D(mod, rm)`, the displacement byte count. -/
def RM.dispBytes : RM → Nat
  | .reg _ => 0
  | .direct _ => 2
  | .base _ => 0
  | .disp8 _ _ => 1
  | .disp16 _ _ => 2

/-- The immediate byte count: 1 if w = 0 or s = 1, else 2 (R61, R66). -/
def immBytes (s : Bool) : Width → Nat
  | .byte => 1
  | .word => if s then 1 else 2

/-- The s bit of a `mov` immediate to register/memory: 0xC6/0xC7 have none (s = 0, R61). -/
def MovImmEnc.s : MovImmEnc → Bool
  | .irm _ => false
  | .grp1 s _ => s

/-- `size` (R66). -/
def Instr.size : Instr → Nat
  | .movRmReg _ _ _ rm | .addRmReg _ _ _ rm | .subRmReg _ _ _ rm | .cmpRmReg _ _ _ rm => 2 + rm.dispBytes
  | .movImmRm enc w rm _ => 2 + rm.dispBytes + immBytes enc.s w
  | .addImmRm s w rm _ | .subImmRm s w rm _ | .cmpImmRm s w rm _ => 2 + rm.dispBytes + immBytes s w
  | .movImmReg w _ _ => 1 + immBytes false w
  | .movMemAcc _ _ | .movAccMem _ _ => 3
  | .addImmAcc w _ | .subImmAcc w _ | .cmpImmAcc w _ => 1 + immBytes false w
  | .jo _ | .jno _ | .jb _ | .jnb _ | .je _ | .jne _ | .jbe _ | .jnbe _ => 2
  | .js _ | .jns _ | .jp _ | .jnp _ | .jl _ | .jnl _ | .jle _ | .jnle _ => 2
  | .jcxz _ | .loop _ | .loopz _ | .loopnz _ => 2

/-! ### The decoder -/

/-- `FetchByte(k)` (R50): `bs` holds the program's bytes from offset `ip` up to n. -/
def fetchByte (ip : Nat) (bs : List Byte) (k : Nat) : Except Trap Byte :=
  match bs[k]? with
  | some b => .ok b
  | none => .error ⟨.truncated, BitVec.ofNat 32 (ip + k)⟩

/-- Two bytes, low byte first (R61, R68). -/
def fetchWord (ip : Nat) (bs : List Byte) (k : Nat) : Except Trap Word := do
  let lo ← fetchByte ip bs k
  let hi ← fetchByte ip bs (k + 1)
  return joinBytes hi lo

/-- The ModRM byte's fields (R57). -/
def modField (m : Byte) : BitVec 2 := m.extractLsb' 6 2
def regField (m : Byte) : BitVec 3 := m.extractLsb' 3 3
def rmField (m : Byte) : BitVec 3 := m.extractLsb' 0 3

/-- The r/m operand of `DecModRM` (R57, R68): `m` is the ModRM byte, at index 1. -/
def decRM (ip : Nat) (bs : List Byte) (m : Byte) (w : Width) : Except Trap RM :=
  if modField m = 0b11 then return .reg (regTab (rmField m) w)
  else if modField m = 0b00 then
    if rmField m = 0b110 then do
      let a ← fetchWord ip bs 2
      return .direct a
    else return .base (eaTab (rmField m))
  else if modField m = 0b01 then do
    let d ← fetchByte ip bs 2
    return .disp8 (eaTab (rmField m)) d
  else do
    let d ← fetchWord ip bs 2
    return .disp16 (eaTab (rmField m)) d

/-- `DecImm(k, w, s)` (R61, R71). -/
def decImm (ip : Nat) (bs : List Byte) (k : Nat) (s : Bool) : Width → Except Trap Word
  | .byte => do
    let v ← fetchByte ip bs k
    return zext16 v
  | .word =>
    if s then do
      let v ← fetchByte ip bs k
      return sext16 v
    else fetchWord ip bs k

/-- `DecRM` (R58), for the constructor `mk` of the operation. -/
def decRmReg (mk : Dir → Width → Reg → RM → Instr) (d : Dir) (w : Width) (ip : Nat) (bs : List Byte) :
    Except Trap Instr := do
  let m ← fetchByte ip bs 1
  let rm ← decRM ip bs m w
  return mk d w (regTab (regField m) w) rm

/-- `DecImmRM(mov, s = 0, w)` (R59); bits 5:3 of the ModRM byte are ignored (R73). -/
def decMovImmRm (w : Width) (ip : Nat) (bs : List Byte) : Except Trap Instr := do
  let m ← fetchByte ip bs 1
  let rm ← decRM ip bs m w
  let imm ← decImm ip bs (2 + rm.dispBytes) false w
  return .movImmRm (.irm (regField m)) w rm imm

/-- The operation that a group-1 sub-operation field selects (R60), or the fault of R72. -/
def grp1Op (p : Grp1OtherPolicy) (s : Bool) (sub : BitVec 3) : Except Trap (Width → RM → Word → Instr) :=
  if sub = 0b000 then .ok (.addImmRm s)
  else if sub = 0b101 then .ok (.subImmRm s)
  else if sub = 0b111 then .ok (.cmpImmRm s)
  else match p with
    | .fault => .error ⟨.unsupportedSubop, sub.setWidth 32⟩
    | .mov => .ok (.movImmRm (.grp1 s sub))

/-- `DecImmRM(group1, s, w)` (R60): the sub-operation is checked right after byte 1 (60_exceptions.md R141). -/
def decGrp1 (p : Grp1OtherPolicy) (s : Bool) (w : Width) (ip : Nat) (bs : List Byte) : Except Trap Instr := do
  let m ← fetchByte ip bs 1
  let mk ← grp1Op p s (regField m)
  let rm ← decRM ip bs m w
  let imm ← decImm ip bs (2 + rm.dispBytes) s w
  return mk w rm imm

/-- `DecAccMem` (R62), for the constructor of its direction. -/
def decAccMem (mk : Width → Word → Instr) (w : Width) (ip : Nat) (bs : List Byte) : Except Trap Instr := do
  let a ← fetchWord ip bs 1
  return mk w a

/-- `DecImmAcc` (R63). -/
def decImmAcc (mk : Width → Word → Instr) (w : Width) (ip : Nat) (bs : List Byte) : Except Trap Instr := do
  let imm ← decImm ip bs 1 false w
  return mk w imm

/-- `DecImmReg` (R64). -/
def decImmReg (w : Width) (code : BitVec 3) (ip : Nat) (bs : List Byte) : Except Trap Instr := do
  let imm ← decImm ip bs 1 false w
  return .movImmReg w (regTab code w) imm

/-- `DecJump` (R65). -/
def decJump (mk : Byte → Instr) (ip : Nat) (bs : List Byte) : Except Trap Instr := do
  let r ← fetchByte ip bs 1
  return mk r

/-- `JTAB` (R67). -/
def jtab (b0 : Byte) : Option (Byte → Instr) :=
  if b0 = 0x70 then some .jo else if b0 = 0x71 then some .jno
  else if b0 = 0x72 then some .jb else if b0 = 0x73 then some .jnb
  else if b0 = 0x74 then some .je else if b0 = 0x75 then some .jne
  else if b0 = 0x76 then some .jbe else if b0 = 0x77 then some .jnbe
  else if b0 = 0x78 then some .js else if b0 = 0x79 then some .jns
  else if b0 = 0x7A then some .jp else if b0 = 0x7B then some .jnp
  else if b0 = 0x7C then some .jl else if b0 = 0x7D then some .jnl
  else if b0 = 0x7E then some .jle else if b0 = 0x7F then some .jnle
  else if b0 = 0xE0 then some .loopnz else if b0 = 0xE1 then some .loopz
  else if b0 = 0xE2 then some .loop else if b0 = 0xE3 then some .jcxz
  else none

/-- The fields of the opcode byte (R51). -/
def opW (b0 : Byte) : Width := Width.ofBit (b0.getLsbD 0)
def opD (b0 : Byte) : Dir := Dir.ofBit (b0.getLsbD 1)
def opS (b0 : Byte) : Bool := b0.getLsbD 1
def top7 (b0 : Byte) : BitVec 7 := b0.extractLsb' 1 7
def top6 (b0 : Byte) : BitVec 6 := b0.extractLsb' 2 6
def top4 (b0 : Byte) : BitVec 4 := b0.extractLsb' 4 4

/-- The families that R51 tries after the jump/loop table, in its order (R54, R74). -/
def decFamily (p : Grp1OtherPolicy) (b0 : Byte) (ip : Nat) (bs : List Byte) : Except Trap Instr :=
  if top7 b0 = 0b1100011 then decMovImmRm (opW b0) ip bs
  else if top7 b0 = 0b1010000 then decAccMem .movMemAcc (opW b0) ip bs
  else if top7 b0 = 0b1010001 then decAccMem .movAccMem (opW b0) ip bs
  else if top7 b0 = 0b0000010 then decImmAcc .addImmAcc (opW b0) ip bs
  else if top7 b0 = 0b0010110 then decImmAcc .subImmAcc (opW b0) ip bs
  else if top7 b0 = 0b0011110 then decImmAcc .cmpImmAcc (opW b0) ip bs
  else if top6 b0 = 0b100010 then decRmReg .movRmReg (opD b0) (opW b0) ip bs
  else if top6 b0 = 0b000000 then decRmReg .addRmReg (opD b0) (opW b0) ip bs
  else if top6 b0 = 0b001010 then decRmReg .subRmReg (opD b0) (opW b0) ip bs
  else if top6 b0 = 0b001110 then decRmReg .cmpRmReg (opD b0) (opW b0) ip bs
  else if top6 b0 = 0b100000 then decGrp1 p (opS b0) (opW b0) ip bs
  else if top4 b0 = 0b1011 then decImmReg (Width.ofBit (b0.getLsbD 3)) (b0.extractLsb' 0 3) ip bs
  else .error ⟨.unrecognizedOpcode, b0.setWidth 32⟩

/-- `Decode()` (R54): a pure function of the bytes from `ip` up to n, of `ip` (for the information word of
`TRUNCATED`) and of `GRP1_OTHER_POLICY` (10_state.md R27). -/
def decode (p : Grp1OtherPolicy) (ip : Nat) (bs : List Byte) : Except Trap Instr := do
  let b0 ← fetchByte ip bs 0
  match jtab b0 with
  | some mk => decJump mk ip bs
  | none => decFamily p b0 ip bs

/-! ### The encoder -/

/-- A word, low byte first. -/
def wordBytes (v : Word) : List Byte := [loByte v, hiByte v]

/-- `mod(2) reg(3) rm(3)` (R57). -/
def modrm (mod : BitVec 2) (reg rm : BitVec 3) : Byte := (mod ++ reg ++ rm : BitVec (2 + 3 + 3))

/-- The ModRM byte and the displacement bytes of an r/m operand (R57). -/
def RM.encode (reg : BitVec 3) : RM → List Byte
  | .reg r => [modrm 0b11 reg r.code]
  | .direct a => modrm 0b00 reg 0b110 :: wordBytes a
  | .base b => [modrm 0b00 reg b.code]
  | .disp8 b d => [modrm 0b01 reg b.code, d]
  | .disp16 b d => modrm 0b10 reg b.code :: wordBytes d

/-- The immediate bytes (R61). -/
def encodeImm (s : Bool) (imm : Word) : Width → List Byte
  | .byte => [loByte imm]
  | .word => if s then [loByte imm] else wordBytes imm

/-- The opcode byte `o o o o o o d w` of formats RM and IRM-GRP1 (R58, R60). -/
def opcode6 (o : BitVec 6) (d : Bool) (w : Width) : Byte :=
  (o ++ BitVec.ofBool d ++ BitVec.ofBool w.bit : BitVec (6 + 1 + 1))

/-- The opcode byte `o o o o o o o w` of formats IRM-MOV, ACCMEM and IACC (R59, R62, R63). -/
def opcode7 (o : BitVec 7) (w : Width) : Byte := (o ++ BitVec.ofBool w.bit : BitVec (7 + 1))

/-- The opcode byte `1 0 1 1 w r r r` of format IREG (R64). -/
def opcodeIReg (w : Width) (code : BitVec 3) : Byte :=
  ((0b1011 : BitVec 4) ++ BitVec.ofBool w.bit ++ code : BitVec (4 + 1 + 3))

/-- The bytes of format RM after the family pattern is chosen (R58). -/
def encodeRmReg (o : BitVec 6) (d : Dir) (w : Width) (reg : Reg) (rm : RM) : List Byte :=
  opcode6 o d.bit w :: rm.encode reg.code

/-- The bytes of format IRM-GRP1 (R60). -/
def encodeGrp1 (s : Bool) (sub : BitVec 3) (w : Width) (rm : RM) (imm : Word) : List Byte :=
  opcode6 0b100000 s w :: (rm.encode sub ++ encodeImm s imm w)

/-- The bytes of an instruction, in fetch order (30_encoding.md section 5). -/
def encode : Instr → List Byte
  | .movRmReg d w reg rm => encodeRmReg 0b100010 d w reg rm
  | .movImmRm (.irm x) w rm imm => opcode7 0b1100011 w :: (rm.encode x ++ encodeImm false imm w)
  | .movImmRm (.grp1 s sub) w rm imm => encodeGrp1 s sub w rm imm
  | .movImmReg w reg imm => opcodeIReg w reg.code :: encodeImm false imm w
  | .movMemAcc w a => opcode7 0b1010000 w :: wordBytes a
  | .movAccMem w a => opcode7 0b1010001 w :: wordBytes a
  | .addRmReg d w reg rm => encodeRmReg 0b000000 d w reg rm
  | .addImmRm s w rm imm => encodeGrp1 s 0b000 w rm imm
  | .addImmAcc w imm => opcode7 0b0000010 w :: encodeImm false imm w
  | .subRmReg d w reg rm => encodeRmReg 0b001010 d w reg rm
  | .subImmRm s w rm imm => encodeGrp1 s 0b101 w rm imm
  | .subImmAcc w imm => opcode7 0b0010110 w :: encodeImm false imm w
  | .cmpRmReg d w reg rm => encodeRmReg 0b001110 d w reg rm
  | .cmpImmRm s w rm imm => encodeGrp1 s 0b111 w rm imm
  | .cmpImmAcc w imm => opcode7 0b0011110 w :: encodeImm false imm w
  | .jo r => [0x70, r]
  | .jno r => [0x71, r]
  | .jb r => [0x72, r]
  | .jnb r => [0x73, r]
  | .je r => [0x74, r]
  | .jne r => [0x75, r]
  | .jbe r => [0x76, r]
  | .jnbe r => [0x77, r]
  | .js r => [0x78, r]
  | .jns r => [0x79, r]
  | .jp r => [0x7A, r]
  | .jnp r => [0x7B, r]
  | .jl r => [0x7C, r]
  | .jnl r => [0x7D, r]
  | .jle r => [0x7E, r]
  | .jnle r => [0x7F, r]
  | .loopnz r => [0xE0, r]
  | .loopz r => [0xE1, r]
  | .loop r => [0xE2, r]
  | .jcxz r => [0xE3, r]

/-! ### The opcode table's numbering -/

/-- The length of the longest instruction (R66). -/
def maxLen : Nat := 6

/-- The three 16-bit rows of spec/opcode_table.json (IRM-GRP1 with sub-operation 000, 101 or 111): their
match and mask "are on b0:b1, b0 in bits 15:8". DEDUCED (log 14). -/
def isGrp1Row (nbits w : Nat) : Bool :=
  nbits == 16 && (w &&& 0xFC38 == 0x8000 || w &&& 0xFC38 == 0x8028 || w &&& 0xFC38 == 0x8038)

/-- The instruction's bytes in fetch order from its number `w` in the opcode table: byte k in bits
8k+7..8k, but for the table's three 16-bit rows (log 14). Bytes above `nbits` are 0, up to the longest
instruction. -/
def tableBytes (nbits w : Nat) : List Byte :=
  let v := w % 2 ^ nbits
  if isGrp1Row nbits v then [BitVec.ofNat 8 (v / 256), BitVec.ofNat 8 v, 0, 0, 0, 0]
  else [BitVec.ofNat 8 v, BitVec.ofNat 8 (v / 2 ^ 8), BitVec.ofNat 8 (v / 2 ^ 16), BitVec.ofNat 8 (v / 2 ^ 24),
    BitVec.ofNat 8 (v / 2 ^ 32), BitVec.ofNat 8 (v / 2 ^ 40)]

/-- The instruction the decoder reads from an opcode-table number, under the default
`GRP1_OTHER_POLICY`. -/
def decodeTableWord (nbits w : Nat) : Option Instr :=
  match decode .fault 0 (tableBytes nbits w) with
  | .ok i => some i
  | .error _ => none

end Sys2Proof
end

