-- ==== Sys2Proof/Machine/State.lean ====
section
/-! DEFINITION. The machine's state as plain data (10_state.md), what a step may stop with, and the state
after reset. -/

namespace Sys2Proof.Machine

/-- The 8 cells of the register file (10_state.md R13). -/
inductive Cell where
  | a | b | c | d | sp | bp | si | di
deriving DecidableEq, Repr

/-- One thing of each kind for each of the 8 cells (R13). -/
structure Cells (α : Type) where
  a : α
  b : α
  c : α
  d : α
  sp : α
  bp : α
  si : α
  di : α
deriving DecidableEq, Repr

/-- Which bytes of a cell have a value (R29). -/
structure ByteMarks where
  lo : Bool
  hi : Bool
deriving DecidableEq, Repr

/-- `STATE` (R22). -/
inductive RunState where
  | running
  | halted
  | faulted
deriving DecidableEq, Repr

/-- The status record (R22). -/
structure Status where
  /-- `STATE` -/
  run : RunState
  /-- `FAULT_CODE` -/
  code : FaultCode
  /-- `FAULT_IP` -/
  faultIp : Nat
  /-- `FAULT_INFO` -/
  info : DWord
deriving DecidableEq, Repr

/-- A byte-addressed memory: (address, byte) pairs in the canonical form `Memory.wf`. -/
abbrev Memory := List Host.Cell

/-- What the host sees of a cell: each byte, or `none` for a byte with no value (R29, log 10). -/
structure CellImage where
  lo : Option Byte
  hi : Option Byte
deriving DecidableEq, Repr

/-- The letters of a trace's `flags` field (40_sequencer.md R92). -/
inductive FlagLetter where
  | Z
  | S
deriving DecidableEq, Repr

/-- The `reg` field of a trace record (R92). -/
structure RegChange where
  cell : Cell
  before : CellImage
  after : CellImage
deriving DecidableEq, Repr

/-- The `mem` field of a trace record (R92); values are given byte by byte, low byte first. -/
structure MemChange where
  addr : Nat
  count : Nat
  before : List (Option Byte)
  after : List (Option Byte)
deriving DecidableEq, Repr

/-- The records the block emits: `Listing(I)`, `Trace(I, ...)` (R92) and `FinalDump` (R93). -/
inductive Record where
  | listing (text : String)
  | trace (text : String) (reg : Option RegChange) (mem : Option MemChange) (ipBefore ipAfter : Nat)
      (flags : Option (List FlagLetter))
  | finalDump (cells : Cells CellImage) (ip : Nat)
deriving DecidableEq, Repr

/-- The whole state (10_state.md). `cfg` carries the parameters of 00_scope.md R8 (log 1); `known`, `zfKnown`
and `sfKnown` say which register bytes and flags have a value (R29, log 19); `out` is the model's own: the
records emitted in this run, oldest first (log 15). -/
structure State where
  cfg : Config
  /-- the register file (R13) -/
  regs : Cells Word
  /-- the register bytes that have a value (R29) -/
  known : Cells ByteMarks
  /-- `ZF` (R20) -/
  zf : Bool
  /-- `SF` (R20) -/
  sf : Bool
  /-- `ZF` has a value (R29) -/
  zfKnown : Bool
  /-- `SF` has a value (R29) -/
  sfKnown : Bool
  /-- the instruction pointer (R18) -/
  ip : Nat
  /-- the status record (R22) -/
  status : Status
  /-- the program buffer `PB` (R23) -/
  pb : Memory
  /-- the length of the loaded program (R23) -/
  n : Nat
  /-- the data memory `M` (R24) -/
  mem : Memory
  /-- the mode latch (R25) -/
  mode : Mode
  /-- the records emitted in this run, oldest first (40_sequencer.md R92) -/
  out : List Record
deriving DecidableEq, Repr

/-- Why the machine has no step. The spec's own faults are NOT here: raising one writes the status record
and is a next state (60_exceptions.md R139, log 2). -/
inductive Fault where
  /-- Raised by `step` when `STATE = HALTED`: "When `STATE` is `HALTED` or `FAULTED` the block has no step"
  (40_sequencer.md R83). Safe. -/
  | halted
  /-- Raised by `step` when `STATE = FAULTED` (R83, 60_exceptions.md R139). Safe. -/
  | faulted
deriving DecidableEq, Repr

/-- Why an instruction has no meaning. No arm of `exec` answers one. -/
inductive Refusal where
  /-- Raised by an arm of `exec` whose instruction has no meaning yet. Safe. -/
  | notModelled (mnemonic : String)
deriving DecidableEq, Repr

/-- What a step or a meaning answers. -/
abbrev Result := Host.Outcome State Fault Refusal

/-- The same thing for every cell. -/
def Cells.fill {α : Type} (x : α) : Cells α := ⟨x, x, x, x, x, x, x, x⟩

/-- The status record at the start of a run (R22). -/
def Status.initial : Status := ⟨.running, .none, 0, 0⟩

/-- The state at the start of a run: R28 under `RESET_POLICY = zero`; R29 under `undefined`, where no register
byte, flag or data byte has a value. -/
def State.initial (cfg : Config) (pb : Memory) (n : Nat) (mode : Mode) : State where
  cfg := cfg
  regs := Cells.fill 0
  known := Cells.fill ⟨cfg.resetPolicy == .zero, cfg.resetPolicy == .zero⟩
  zf := false
  sf := false
  zfKnown := cfg.resetPolicy == .zero
  sfKnown := cfg.resetPolicy == .zero
  ip := 0
  status := Status.initial
  pb := pb
  n := n
  mem := []
  mode := mode
  out := []

/-- The machine right after reset, with the default parameters (00_scope.md R8, 10_state.md R28). `PB`, n and
`MODE` are "as loaded and set by the host": here nothing is loaded and the mode is EXECUTE. DESIGN CHOICE
(log 3). -/
def State.reset : State := State.initial Config.spec [] 0 .execute

end Sys2Proof.Machine
end

