-- ==== Sys2Proof/Machine/Ops.lean ====
section
/-! DEFINITION. The named operations over cells, memory, the status record and `ip`, and raising a fault. -/

namespace Sys2Proof.Machine

/-! ### Register cells (10_state.md R14) -/

/-- Read of cell c. -/
def Cells.get {α : Type} (r : Cells α) : Cell → α
  | .a => r.a
  | .b => r.b
  | .c => r.c
  | .d => r.d
  | .sp => r.sp
  | .bp => r.bp
  | .si => r.si
  | .di => r.di

/-- Write of cell c. -/
def Cells.set {α : Type} (r : Cells α) (k : Cell) (v : α) : Cells α :=
  match k with
  | .a => { r with a := v }
  | .b => { r with b := v }
  | .c => { r with c := v }
  | .d => { r with d := v }
  | .sp => { r with sp := v }
  | .bp => { r with bp := v }
  | .si => { r with si := v }
  | .di => { r with di := v }

/-- `x[c]` (R14). -/
def State.cell (s : State) (k : Cell) : Word := s.regs.get k

/-- A write of cell c that gives the bytes `m` a value (R14, R29). -/
def State.setCell (s : State) (k : Cell) (v : Word) (m : ByteMarks) : State :=
  { s with regs := s.regs.set k v, known := s.known.set k m }

/-- `x[c] <- v` (R14). -/
def State.writeCell (s : State) (k : Cell) (v : Word) : State := s.setCell k v ⟨true, true⟩

/-! ### Memories (20_memory.md R38, R39) -/

/-- The listed byte at an address. -/
def Memory.lookup : Memory → Nat → Option Byte
  | [], _ => none
  | (k, v) :: m, a => if k = a then some v else Memory.lookup m a

/-- Lists a byte at an address, in address order. -/
def Memory.insert : Memory → Nat → Byte → Memory
  | [], a, v => [(a, v)]
  | (k, w) :: m, a, v =>
    if a < k then (a, v) :: (k, w) :: m
    else if a = k then (a, v) :: m
    else (k, w) :: Memory.insert m a v

/-- Takes an address out of the list. -/
def Memory.erase (m : Memory) (a : Nat) : Memory := m.filter (fun x => x.1 != a)

/-- WHAT AN UNLISTED DATA ADDRESS READS AS: 0x00 under `RESET_POLICY = zero` (10_state.md R28), no value under
`undefined` (R29). -/
def unlistedByte : ResetPolicy → Option Byte
  | .zero => some 0
  | .undefined => none

/-- The byte at an address, `none` when it has no value. -/
def Memory.read (p : ResetPolicy) (m : Memory) (a : Nat) : Option Byte :=
  match Memory.lookup m a with
  | some v => some v
  | none => unlistedByte p

/-- `M[a] <- v`, keeping the canonical form. -/
def Memory.write (p : ResetPolicy) (m : Memory) (a : Nat) (v : Byte) : Memory :=
  if unlistedByte p = some v then Memory.erase m a else Memory.insert m a v

/-- Addresses strictly rise. -/
def Memory.sorted : Memory → Bool
  | [] => true
  | (k, _) :: m => m.all (fun x => decide (k < x.1)) && Memory.sorted m

/-- The canonical form, for a memory of `size` bytes: addresses strictly rising and below `size`, and no entry
equal to what an unlisted address reads as. -/
def Memory.wf (p : ResetPolicy) (size : Nat) (m : Memory) : Bool :=
  Memory.sorted m && m.all (fun x => decide (x.1 < size) && decide (unlistedByte p ≠ some x.2))

/-- Writes bytes at rising addresses from `a`. -/
def Memory.writeList (p : ResetPolicy) (m : Memory) (a : Nat) : List Byte → Memory
  | [] => m
  | v :: vs => Memory.writeList p (Memory.write p m a v) (a + 1) vs

/-! ### Program space (20_memory.md R32) -/

/-- `PB[i]`. A byte the host never placed reads 0x00; no fetch at or past n reads one. DESIGN CHOICE (log 5). -/
def State.pbByte (s : State) (i : Nat) : Byte := (Memory.read .zero s.pb i).getD 0

/-- The bytes the decoder may fetch for the instruction at `ip`: those below n (30_encoding.md R50), of which
it needs at most `maxLen` (R66). -/
def State.window (s : State) : List Byte :=
  (List.range (min maxLen (s.n - s.ip))).map (fun k => s.pbByte (s.ip + k))

/-! ### Data memory (20_memory.md R38, R39) -/

/-- `M[a]`, `none` when the byte has no value (10_state.md R29). -/
def State.dataByte (s : State) (a : Nat) : Option Byte := Memory.read s.cfg.resetPolicy s.mem a

/-- `M[a]` where it has a value; a meaning reads a byte with no value only after `readTrap` has passed. -/
def State.memByte (s : State) (a : Nat) : Byte := (s.dataByte a).getD 0

/-- `M[a] <- v`. -/
def State.setMemByte (s : State) (a : Nat) (v : Byte) : State :=
  { s with mem := Memory.write s.cfg.resetPolicy s.mem a v }

/-- The second byte's address a2 of a word access at a (R38, D5). -/
def secondAddr : WordAtFFFF → Word → Nat
  | .wrap16, a => (a + 1).toNat
  | .linear, a => a.toNat + 1

/-- The data bytes an access of width W at a touches, a before a2 (R37, R38). -/
def State.accessAddrs (s : State) (w : Width) (a : Word) : List Nat :=
  match w with
  | .byte => [a.toNat]
  | .word => [a.toNat, secondAddr s.cfg.wordAtFFFF a]

/-- `MemRead(a, W/8)` (R38); a byte is held zero-extended (log 13). -/
def State.memRead (s : State) (w : Width) (a : Word) : Word :=
  match w with
  | .byte => zext16 (s.memByte a.toNat)
  | .word => joinBytes (s.memByte (secondAddr s.cfg.wordAtFFFF a)) (s.memByte a.toNat)

/-- `MemWrite(a, W/8, v)` (R39). -/
def State.memWrite (s : State) (w : Width) (a v : Word) : State :=
  match w with
  | .byte => s.setMemByte a.toNat (loByte v)
  | .word => (s.setMemByte a.toNat (loByte v)).setMemByte (secondAddr s.cfg.wordAtFFFF a) (hiByte v)

/-! ### Reads of bytes and flags with no value (10_state.md R29) -/

/-- What one read can touch: a register byte, a data byte, a flag. -/
inductive Loc where
  | regLo (k : Cell)
  | regHi (k : Cell)
  | data (a : Nat)
  | zf
  | sf
deriving DecidableEq, Repr

/-- Whether a byte or flag has a value: always under `RESET_POLICY = zero` (R28). -/
def State.hasValue (s : State) (l : Loc) : Bool :=
  s.cfg.resetPolicy == .zero ||
    match l with
    | .regLo k => (s.known.get k).lo
    | .regHi k => (s.known.get k).hi
    | .data a => (s.dataByte a).isSome
    | .zf => s.zfKnown
    | .sf => s.sfKnown

/-- The document's cell numbering (R13). -/
def Cell.number : Cell → Nat
  | .a => 1
  | .b => 2
  | .c => 3
  | .d => 4
  | .sp => 5
  | .bp => 6
  | .si => 7
  | .di => 8

/-- The information word of `UNINITIALISED_READ` (60_exceptions.md R138). -/
def Loc.info : Loc → DWord
  | .data a => BitVec.ofNat 32 (0x10000 + a)
  | .regLo k => BitVec.ofNat 32 (0x20000 + 2 * (k.number - 1))
  | .regHi k => BitVec.ofNat 32 (0x20000 + 2 * (k.number - 1) + 1)
  | .zf => 0x30000
  | .sf => 0x30001

/-- The fault of reading `ls` in order: the first byte or flag with no value is named (R29). -/
def State.readTrap (s : State) (ls : List Loc) : Option Trap :=
  (ls.find? (fun l => !s.hasValue l)).map (fun l => ⟨.uninitialisedRead, l.info⟩)

/-! ### Faults (60_exceptions.md R139, R140) -/

/-- `raise Fault(CODE, info)`: the status record is written, with `FAULT_IP` the `ip` of the instruction being
decoded or executed, and nothing else (R139, R140). There is no return from it (R143, R144): `FAULTED` is
left only by the start of a new run, `State.startRun`. -/
def State.raise (s : State) (t : Trap) : State :=
  { s with status := ⟨.faulted, t.code, s.ip, t.info⟩ }

/-- A step either raises its fault, and then has written nothing, or completes with all its writes
(00_scope.md R11, 40_sequencer.md R91). -/
def State.complete (s : State) (trap : Option Trap) (t : State) : Result :=
  match trap with
  | some x => .next (s.raise x)
  | none => .next t

/-! ### The instruction pointer (40_sequencer.md R86, R87) -/

/-- `ip <- target`. -/
def State.setIp (s : State) (target : Nat) : State := { s with ip := target }

/-- `ip <- ip + size` (R86). -/
def State.advance (s : State) (size : Nat) : State := s.setIp (s.ip + size)

/-- `emit T` (40_sequencer.md R92). -/
def State.emit (s : State) (r : Record) : State := { s with out := s.out ++ [r] }

/-- `STATE <- HALTED` (40_sequencer.md R84). -/
def State.halt (s : State) : State := { s with status := { s.status with run := .halted } }

end Sys2Proof.Machine
end

