-- ==== Sys2Proof/Machine/Operands.lean ====
section
/-! DEFINITION. Operands: the register views, effective addresses, the decoded-instruction record, and
`ReadOp`/`WriteOp` (10_state.md R15 to R17, 20_memory.md R36, 30_encoding.md R52, R53, 40_sequencer.md R89, R90). -/

namespace Sys2Proof.Machine

/-! ### Register views (10_state.md R15) -/

/-- The cell column of R15. -/
def viewCell : Reg → Cell
  | .ax | .al | .ah => .a
  | .bx | .bl | .bh => .b
  | .cx | .cl | .ch => .c
  | .dx | .dl | .dh => .d
  | .sp => .sp
  | .bp => .bp
  | .si => .si
  | .di => .di

/-- The bits-of-the-cell column of R15. -/
inductive Part where
  | full
  | low
  | high
deriving DecidableEq, Repr

/-- The bits of its cell that a view names (R15). -/
def viewPart : Reg → Part
  | .ax | .bx | .cx | .dx | .sp | .bp | .si | .di => .full
  | .al | .bl | .cl | .dl => .low
  | .ah | .bh | .ch | .dh => .high

/-- `RegRead(r)` (R16); a byte is held zero-extended (log 13). -/
def State.regRead (s : State) (r : Reg) : Word :=
  match viewPart r with
  | .full => s.cell (viewCell r)
  | .low => zext16 (loByte (s.cell (viewCell r)))
  | .high => zext16 (hiByte (s.cell (viewCell r)))

/-- `RegWrite(r, v)` (R17): a byte view leaves the other byte of the cell, and whether it has a value (R29). -/
def State.regWrite (s : State) (r : Reg) (v : Word) : State :=
  match viewPart r with
  | .full => s.writeCell (viewCell r) v
  | .low =>
    s.setCell (viewCell r) (joinBytes (hiByte (s.cell (viewCell r))) (loByte v))
      { s.known.get (viewCell r) with lo := true }
  | .high =>
    s.setCell (viewCell r) (joinBytes (loByte v) (loByte (s.cell (viewCell r))))
      { s.known.get (viewCell r) with hi := true }

/-- The bytes of a cell, low byte before high byte (R29). -/
def cellLocs (k : Cell) : List Loc := [.regLo k, .regHi k]

/-- The bytes a register view reads. -/
def regLocs (r : Reg) : List Loc :=
  match viewPart r with
  | .full => cellLocs (viewCell r)
  | .low => [.regLo (viewCell r)]
  | .high => [.regHi (viewCell r)]

/-! ### The decoded-instruction record (30_encoding.md R52, R53) -/

/-- An operand: one of the five kinds of R53. -/
inductive Operand where
  | reg (r : Reg)
  | mem (sel : Selector) (disp : Word)
  | imm (v : DWord)
  | rel (r : DWord)
  | none
deriving DecidableEq, Repr

/-- `op` (R52): the 24 operations. -/
inductive Op where
  | mov | add | sub | cmp
  | jo | jno | jb | jnb | je | jne | jbe | jnbe | js | jns | jp | jnp | jl | jnl | jle | jnle
  | jcxz | loop | loopz | loopnz
deriving DecidableEq, Repr

/-- The record `Instruction` (R52): `dst` is `operands[0]`, `src` is `operands[1]`. -/
structure Instruction where
  address : Nat
  size : Nat
  op : Op
  dst : Operand
  src : Operand
  wide : Width
deriving DecidableEq, Repr

/-- The r/m operand (R57): the displacement is 0 (mod = 00), sign-extended (mod = 01) or 16 bits. -/
def RM.operand : RM → Operand
  | .reg r => .reg r
  | .direct a => .mem .direct a
  | .base b => .mem (.base b) 0
  | .disp8 b d => .mem (.base b) (sext16 d)
  | .disp16 b d => .mem (.base b) d

/-- The accumulator (R62, R63): `al` or `ax`. -/
def accReg : Width → Reg
  | .byte => .al
  | .word => .ax

/-- `Imm(v)`, held zero-extended to 32 bits (R53). -/
def immOperand (v : Word) : Operand := .imm (v.setWidth 32)

/-- `Rel(sext_32(r))` (R65). -/
def relOperand (r : Byte) : Operand := .rel (r.signExtend 32)

/-- The record of format RM (R58): d = 0 makes the r/m operand the destination. -/
def rmRegRecord (op : Op) (d : Dir) (w : Width) (reg : Reg) (rm : RM) (size address : Nat) : Instruction :=
  match d with
  | .toRm => ⟨address, size, op, RM.operand rm, .reg reg, w⟩
  | .toReg => ⟨address, size, op, .reg reg, RM.operand rm, w⟩

/-- The record of format JMP (R65): `wide = 0`. -/
def jumpRecord (op : Op) (r : Byte) (address : Nat) : Instruction := ⟨address, 2, op, relOperand r, .none, .byte⟩

/-- The record of an instruction at `address` (R58 to R65). -/
def record (i : Instr) (address : Nat) : Instruction :=
  match i with
  | .movRmReg d w reg rm => rmRegRecord .mov d w reg rm i.size address
  | .movImmRm _ w rm imm => ⟨address, i.size, .mov, RM.operand rm, immOperand imm, w⟩
  | .movImmReg w reg imm => ⟨address, i.size, .mov, .reg reg, immOperand imm, w⟩
  | .movMemAcc w a => ⟨address, i.size, .mov, .reg (accReg w), .mem .direct a, w⟩
  | .movAccMem w a => ⟨address, i.size, .mov, .mem .direct a, .reg (accReg w), w⟩
  | .addRmReg d w reg rm => rmRegRecord .add d w reg rm i.size address
  | .addImmRm _ w rm imm => ⟨address, i.size, .add, RM.operand rm, immOperand imm, w⟩
  | .addImmAcc w imm => ⟨address, i.size, .add, .reg (accReg w), immOperand imm, w⟩
  | .subRmReg d w reg rm => rmRegRecord .sub d w reg rm i.size address
  | .subImmRm _ w rm imm => ⟨address, i.size, .sub, RM.operand rm, immOperand imm, w⟩
  | .subImmAcc w imm => ⟨address, i.size, .sub, .reg (accReg w), immOperand imm, w⟩
  | .cmpRmReg d w reg rm => rmRegRecord .cmp d w reg rm i.size address
  | .cmpImmRm _ w rm imm => ⟨address, i.size, .cmp, RM.operand rm, immOperand imm, w⟩
  | .cmpImmAcc w imm => ⟨address, i.size, .cmp, .reg (accReg w), immOperand imm, w⟩
  | .jo r => jumpRecord .jo r address
  | .jno r => jumpRecord .jno r address
  | .jb r => jumpRecord .jb r address
  | .jnb r => jumpRecord .jnb r address
  | .je r => jumpRecord .je r address
  | .jne r => jumpRecord .jne r address
  | .jbe r => jumpRecord .jbe r address
  | .jnbe r => jumpRecord .jnbe r address
  | .js r => jumpRecord .js r address
  | .jns r => jumpRecord .jns r address
  | .jp r => jumpRecord .jp r address
  | .jnp r => jumpRecord .jnp r address
  | .jl r => jumpRecord .jl r address
  | .jnl r => jumpRecord .jnl r address
  | .jle r => jumpRecord .jle r address
  | .jnle r => jumpRecord .jnle r address
  | .jcxz r => jumpRecord .jcxz r address
  | .loop r => jumpRecord .loop r address
  | .loopz r => jumpRecord .loopz r address
  | .loopnz r => jumpRecord .loopnz r address

/-! ### Effective addresses (20_memory.md R35, R36) -/

/-- The registers-summed column of R35, in the order it names them. -/
def baseCells : Base → List Cell
  | .bxSi => [.b, .si]
  | .bxDi => [.b, .di]
  | .bpSi => [.bp, .si]
  | .bpDi => [.bp, .di]
  | .si => [.si]
  | .di => [.di]
  | .bp => [.bp]
  | .bx => [.b]

/-- The cells a selector names. -/
def selectorCells : Selector → List Cell
  | .direct => []
  | .base b => baseCells b

/-- `EA(Mem(sel, disp))`: the sum modulo 2^16 (R36). -/
def State.ea (s : State) (sel : Selector) (disp : Word) : Word :=
  (selectorCells sel).foldl (fun acc k => acc + s.cell k) disp

/-- The register bytes an operand's effective address reads (60_exceptions.md R142, log 6). -/
def eaLocs : Operand → List Loc
  | .mem sel _ => (selectorCells sel).flatMap cellLocs
  | .reg _ | .imm _ | .rel _ | .none => []

/-- The bytes that reading an operand's value touches, its effective address aside. -/
def State.valueLocs (s : State) (w : Width) : Operand → List Loc
  | .reg r => regLocs r
  | .mem sel d => (s.accessAddrs w (s.ea sel d)).map Loc.data
  | .imm _ | .rel _ | .none => []

/-! ### Operand access (40_sequencer.md R89, R90) -/

/-- `trunc_W` of a held value, zero-extended to a word (00_scope.md R10, log 13). -/
def truncW (w : Width) (v : DWord) : Word :=
  match w with
  | .byte => zext16 (v.setWidth 8)
  | .word => v.setWidth 16

/-- `ReadOp(op)` (R89). The kinds that fault there are stopped by `readKindTrap` before their value is used. -/
def State.readOp (s : State) (w : Width) : Operand → Word
  | .reg r => s.regRead r
  | .mem sel d => s.memRead w (s.ea sel d)
  | .imm v => truncW w v
  | .rel _ | .none => 0

/-- `WriteOp(op, v)` (R90). The kinds that fault there are stopped by `writeKindTrap`. -/
def State.writeOp (s : State) (w : Width) (op : Operand) (v : Word) : State :=
  match op with
  | .reg r => s.regWrite r v
  | .mem sel d => s.memWrite w (s.ea sel d) v
  | .imm _ | .rel _ | .none => s

/-- `UNSUPPORTED_OPERAND` of `ReadOp` for operand `i` (R89). -/
def readKindTrap (i : DWord) : Operand → Option Trap
  | .rel _ | .none => some ⟨.unsupportedOperand, i⟩
  | .reg _ | .mem _ _ | .imm _ => none

/-- `UNSUPPORTED_OPERAND` of `WriteOp` (R90). -/
def writeKindTrap : Operand → Option Trap
  | .imm _ | .rel _ | .none => some ⟨.unsupportedOperand, 0⟩
  | .reg _ | .mem _ _ => none

/-- The reads of `mov`: effective-address registers, then the source (60_exceptions.md R142). -/
def State.movReads (s : State) (I : Instruction) : List Loc :=
  eaLocs I.dst ++ eaLocs I.src ++ s.valueLocs I.wide I.src

/-- The reads of `add`, `sub` and `cmp`: effective-address registers, the destination's old value, the source
(60_exceptions.md R142). -/
def State.aluReads (s : State) (I : Instruction) : List Loc :=
  eaLocs I.dst ++ eaLocs I.src ++ s.valueLocs I.wide I.dst ++ s.valueLocs I.wide I.src

/-- The faults of `mov` in the order of 60_exceptions.md R142; the source's kind by log 6. -/
def State.movTrap (s : State) (I : Instruction) : Option Trap :=
  (writeKindTrap I.dst).or ((readKindTrap 1 I.src).or (s.readTrap (s.movReads I)))

/-- The faults of `add` and `sub` in the order of 60_exceptions.md R142; the source's kind by log 6. -/
def State.aluTrap (s : State) (I : Instruction) : Option Trap :=
  (writeKindTrap I.dst).or ((readKindTrap 1 I.src).or (s.readTrap (s.aluReads I)))

/-- The faults of `cmp`, which reads its first operand and does not write it; the source's kind by log 6. -/
def State.cmpTrap (s : State) (I : Instruction) : Option Trap :=
  (readKindTrap 0 I.dst).or ((readKindTrap 1 I.src).or (s.readTrap (s.aluReads I)))

end Sys2Proof.Machine
end

