-- ==== Sys2Proof/Machine/Flags.lean ====
section
/-! DEFINITION. The ALU and the two flags (42_add_sub_cmp.md R102 to R104, 10_state.md R20). W-bit values are
held zero-extended in a word (log 13). -/

namespace Sys2Proof.Machine

/-- `AluAdd_W(a, b) = trunc_W(a + b)` (R102). -/
def aluAdd (w : Width) (a b : Word) : Word :=
  match w with
  | .byte => zext16 (loByte a + loByte b)
  | .word => a + b

/-- `AluSub_W(a, b) = trunc_W(a - b)` (R103). -/
def aluSub (w : Width) (a b : Word) : Word :=
  match w with
  | .byte => zext16 (loByte a - loByte b)
  | .word => a - b

/-- ZF of `SubFlags_W(a, b)` (R104). -/
def subZf (w : Width) (a b : Word) : Bool := aluSub w a b == 0

/-- SF of `SubFlags_W(a, b)` by `BYTE_SF_RULE` (R104, D17). -/
def subSf (rule : ByteSfRule) (w : Width) (a b : Word) : Bool :=
  match w, rule with
  | .word, _ => (aluSub .word a b).getLsbD 15
  | .byte, .msb8 => (aluSub .byte a b).getLsbD 7
  | .byte, .bit15Zext => (zext16 (loByte a) - zext16 (loByte b)).getLsbD 15

/-- `(ZF, SF) <- (z, f)`; both flags then have a value (10_state.md R29). -/
def State.setFlags (s : State) (z f : Bool) : State :=
  { s with zf := z, sf := f, zfKnown := true, sfKnown := true }

/-- `(ZF, SF) <- SubFlags_W(a, b)` (R104). -/
def State.subFlags (s : State) (w : Width) (a b : Word) : State :=
  s.setFlags (subZf w a b) (subSf s.cfg.byteSfRule w a b)

end Sys2Proof.Machine
end

