-- ==== Sys2Proof/Machine/Arith.lean ====
section
/-! DEFINITION. The nine forms of `add`, `sub` and `cmp` (42_add_sub_cmp.md). -/

namespace Sys2Proof.Machine

/-- `ExecAdd(I)` (R164); flags untouched (10_state.md R21). -/
def execAdd (I : Instruction) (s : State) : Result :=
  s.complete (s.aluTrap I)
    ((s.writeOp I.wide I.dst (aluAdd I.wide (s.readOp I.wide I.dst) (s.readOp I.wide I.src))).advance I.size)

/-- `ExecSub(I)` (R164). -/
def execSub (I : Instruction) (s : State) : Result :=
  s.complete (s.aluTrap I)
    (((s.writeOp I.wide I.dst (aluSub I.wide (s.readOp I.wide I.dst) (s.readOp I.wide I.src))).subFlags I.wide
      (s.readOp I.wide I.dst) (s.readOp I.wide I.src)).advance I.size)

/-- `ExecCmp(I)` (R164). -/
def execCmp (I : Instruction) (s : State) : Result :=
  s.complete (s.cmpTrap I)
    ((s.subFlags I.wide (s.readOp I.wide I.dst) (s.readOp I.wide I.src)).advance I.size)

/-- R105. -/
def execAddRmReg (d : Dir) (w : Width) (reg : Reg) (rm : RM) (s : State) : Result :=
  execAdd (record (.addRmReg d w reg rm) s.ip) s

/-- R106. -/
def execAddImmRm (sx : Bool) (w : Width) (rm : RM) (imm : Word) (s : State) : Result :=
  execAdd (record (.addImmRm sx w rm imm) s.ip) s

/-- R107. -/
def execAddImmAcc (w : Width) (imm : Word) (s : State) : Result :=
  execAdd (record (.addImmAcc w imm) s.ip) s

/-- R108. -/
def execSubRmReg (d : Dir) (w : Width) (reg : Reg) (rm : RM) (s : State) : Result :=
  execSub (record (.subRmReg d w reg rm) s.ip) s

/-- R109. -/
def execSubImmRm (sx : Bool) (w : Width) (rm : RM) (imm : Word) (s : State) : Result :=
  execSub (record (.subImmRm sx w rm imm) s.ip) s

/-- R110. -/
def execSubImmAcc (w : Width) (imm : Word) (s : State) : Result :=
  execSub (record (.subImmAcc w imm) s.ip) s

/-- R111. -/
def execCmpRmReg (d : Dir) (w : Width) (reg : Reg) (rm : RM) (s : State) : Result :=
  execCmp (record (.cmpRmReg d w reg rm) s.ip) s

/-- R112. -/
def execCmpImmRm (sx : Bool) (w : Width) (rm : RM) (imm : Word) (s : State) : Result :=
  execCmp (record (.cmpImmRm sx w rm imm) s.ip) s

/-- R113. -/
def execCmpImmAcc (w : Width) (imm : Word) (s : State) : Result :=
  execCmp (record (.cmpImmAcc w imm) s.ip) s

end Sys2Proof.Machine
end

