-- ==== Sys2Proof/Machine/Branch.lean ====
section
/-! DEFINITION. The branch/loop unit: the 20 jump/loop instructions (43_jumps_loops.md). -/

namespace Sys2Proof.Machine

/-- `target = I.address + 2 + r`, as an int (40_sequencer.md R87, R114). -/
def State.target (s : State) (rel : Byte) : Int := (s.ip : Int) + 2 + rel.toInt

/-- The range check of a taken branch (40_sequencer.md R88). -/
def State.targetTrap (s : State) (rel : Byte) : Option Trap :=
  if 0 ≤ s.target rel ∧ s.target rel ≤ (s.n : Int) then none
  else some ⟨.branchOutOfRange, BitVec.ofInt 32 (s.target rel)⟩

/-- A branch that tests the bytes and flags `reads`, is taken iff `taken`, and whose other writes are `upd`:
faults in the order of 60_exceptions.md R142, a branch not taken is not range-checked (R114). -/
def State.branch (s : State) (rel : Byte) (reads : List Loc) (taken : Bool) (upd : State) : Result :=
  s.complete ((s.readTrap reads).or (if taken then s.targetTrap rel else none))
    (upd.setIp (if taken then (s.target rel).toNat else s.ip + 2))

/-- `UNIMPLEMENTED_BRANCH` (R116). -/
def State.unimplemented (s : State) (opcode : Byte) : Result :=
  .next (s.raise ⟨.unimplementedBranch, opcode.setWidth 32⟩)

/-- `ExecBranchPolicy(I)` (R116); `arch` is what the instruction does under `arch8086`. -/
def State.branchPolicy (s : State) (opcode : Byte) (arch : Result) : Result :=
  match s.cfg.branchExec with
  | .fault => s.unimplemented opcode
  | .fallthrough => .next (s.advance 2)
  | .arch8086 => arch

/-- A loop instruction under `arch8086` (R133): cell c is decremented, and the branch is taken iff the new
value is not 0 and `cond` holds. -/
def State.loopBranch (s : State) (rel : Byte) (flagReads : List Loc) (cond : Bool) : Result :=
  s.branch rel (cellLocs .c ++ flagReads) ((s.cell .c - 1 != 0) && cond) (s.writeCell .c (s.cell .c - 1))

/-- R115: jump iff ZF = 0, under every policy. -/
def execJne (rel : Byte) (s : State) : Result := s.branch rel [.zf] (!s.zf) s

/-- R117: the 8086 condition OF = 1 needs a flag the block lacks, so `arch8086` faults too. -/
def execJo (_rel : Byte) (s : State) : Result := s.branchPolicy 0x70 (s.unimplemented 0x70)

/-- R118: the 8086 condition OF = 0 needs a flag the block lacks, so `arch8086` faults too. -/
def execJno (_rel : Byte) (s : State) : Result := s.branchPolicy 0x71 (s.unimplemented 0x71)

/-- R119: the 8086 condition CF = 1 needs a flag the block lacks, so `arch8086` faults too. -/
def execJb (_rel : Byte) (s : State) : Result := s.branchPolicy 0x72 (s.unimplemented 0x72)

/-- R120: the 8086 condition CF = 0 needs a flag the block lacks, so `arch8086` faults too. -/
def execJnb (_rel : Byte) (s : State) : Result := s.branchPolicy 0x73 (s.unimplemented 0x73)

/-- R122: the 8086 condition CF = 1 or ZF = 1 needs a flag the block lacks, so `arch8086` faults too. -/
def execJbe (_rel : Byte) (s : State) : Result := s.branchPolicy 0x76 (s.unimplemented 0x76)

/-- R123: the 8086 condition CF = 0 and ZF = 0 needs a flag the block lacks, so `arch8086` faults too. -/
def execJnbe (_rel : Byte) (s : State) : Result := s.branchPolicy 0x77 (s.unimplemented 0x77)

/-- R126: the 8086 condition PF = 1 needs a flag the block lacks, so `arch8086` faults too. -/
def execJp (_rel : Byte) (s : State) : Result := s.branchPolicy 0x7A (s.unimplemented 0x7A)

/-- R127: the 8086 condition PF = 0 needs a flag the block lacks, so `arch8086` faults too. -/
def execJnp (_rel : Byte) (s : State) : Result := s.branchPolicy 0x7B (s.unimplemented 0x7B)

/-- R128: the 8086 condition SF != OF needs a flag the block lacks, so `arch8086` faults too. -/
def execJl (_rel : Byte) (s : State) : Result := s.branchPolicy 0x7C (s.unimplemented 0x7C)

/-- R129: the 8086 condition SF = OF needs a flag the block lacks, so `arch8086` faults too. -/
def execJnl (_rel : Byte) (s : State) : Result := s.branchPolicy 0x7D (s.unimplemented 0x7D)

/-- R130: the 8086 condition ZF = 1 or SF != OF needs a flag the block lacks, so `arch8086` faults too. -/
def execJle (_rel : Byte) (s : State) : Result := s.branchPolicy 0x7E (s.unimplemented 0x7E)

/-- R131: the 8086 condition ZF = 0 and SF = OF needs a flag the block lacks, so `arch8086` faults too. -/
def execJnle (_rel : Byte) (s : State) : Result := s.branchPolicy 0x7F (s.unimplemented 0x7F)

/-- R121: under `arch8086` taken iff ZF = 1. -/
def execJe (rel : Byte) (s : State) : Result := s.branchPolicy 0x74 (s.branch rel [.zf] s.zf s)

/-- R124: under `arch8086` taken iff SF = 1. -/
def execJs (rel : Byte) (s : State) : Result := s.branchPolicy 0x78 (s.branch rel [.sf] s.sf s)

/-- R125: under `arch8086` taken iff SF = 0. -/
def execJns (rel : Byte) (s : State) : Result := s.branchPolicy 0x79 (s.branch rel [.sf] (!s.sf) s)

/-- R132: under `arch8086` taken iff cx = 0. -/
def execJcxz (rel : Byte) (s : State) : Result :=
  s.branchPolicy 0xE3 (s.branch rel (cellLocs .c) (s.cell .c == 0) s)

/-- R133. -/
def execLoop (rel : Byte) (s : State) : Result := s.branchPolicy 0xE2 (s.loopBranch rel [] true)

/-- R134. -/
def execLoopz (rel : Byte) (s : State) : Result := s.branchPolicy 0xE1 (s.loopBranch rel [.zf] s.zf)

/-- R135. -/
def execLoopnz (rel : Byte) (s : State) : Result := s.branchPolicy 0xE0 (s.loopBranch rel [.zf] (!s.zf))

end Sys2Proof.Machine
end

