-- ==== Sys2Proof/Machine/Mov.lean ====
section
/-! DEFINITION. The five forms of `mov` (41_mov.md). -/

namespace Sys2Proof.Machine

/-- `ExecMov(I)` (R163); flags untouched. -/
def execMov (I : Instruction) (s : State) : Result :=
  s.complete (s.movTrap I) ((s.writeOp I.wide I.dst (s.readOp I.wide I.src)).advance I.size)

/-- R97. -/
def execMovRmReg (d : Dir) (w : Width) (reg : Reg) (rm : RM) (s : State) : Result :=
  execMov (record (.movRmReg d w reg rm) s.ip) s

/-- R98, and the decodes of 30_encoding.md R72 under `GRP1_OTHER_POLICY = mov`. -/
def execMovImmRm (enc : MovImmEnc) (w : Width) (rm : RM) (imm : Word) (s : State) : Result :=
  execMov (record (.movImmRm enc w rm imm) s.ip) s

/-- R99. -/
def execMovImmReg (w : Width) (reg : Reg) (imm : Word) (s : State) : Result :=
  execMov (record (.movImmReg w reg imm) s.ip) s

/-- R100. -/
def execMovMemAcc (w : Width) (addr : Word) (s : State) : Result :=
  execMov (record (.movMemAcc w addr) s.ip) s

/-- R101. -/
def execMovAccMem (w : Width) (addr : Word) (s : State) : Result :=
  execMov (record (.movAccMem w addr) s.ip) s

end Sys2Proof.Machine
end

