-- ==== Sys2Proof/Machine/Text.lean ====
section
/-! DEFINITION. The text of a decoded instruction (30_encoding.md R76 to R80, D22). -/

namespace Sys2Proof.Machine

/-- The mnemonic of an operation (R67, R76). -/
def mnemonic : Op → String
  | .mov => "mov" | .add => "add" | .sub => "sub" | .cmp => "cmp"
  | .jo => "jo" | .jno => "jno" | .jb => "jb" | .jnb => "jnb"
  | .je => "je" | .jne => "jne" | .jbe => "jbe" | .jnbe => "jnbe"
  | .js => "js" | .jns => "jns" | .jp => "jp" | .jnp => "jnp"
  | .jl => "jl" | .jnl => "jnl" | .jle => "jle" | .jnle => "jnle"
  | .jcxz => "jcxz" | .loop => "loop" | .loopz => "loopz" | .loopnz => "loopnz"

/-- The canonical view name (R77, 10_state.md R15). -/
def regText : Reg → String
  | .ax => "ax" | .bx => "bx" | .cx => "cx" | .dx => "dx"
  | .sp => "sp" | .bp => "bp" | .si => "si" | .di => "di"
  | .al => "al" | .ah => "ah" | .bl => "bl" | .bh => "bh"
  | .cl => "cl" | .ch => "ch" | .dl => "dl" | .dh => "dh"

/-- The registers of a base, joined by `+` (R78). -/
def baseText : Base → String
  | .bxSi => "bx+si" | .bxDi => "bx+di" | .bpSi => "bp+si" | .bpDi => "bp+di"
  | .si => "si" | .di => "di" | .bp => "bp" | .bx => "bx"

/-- The displacement of a based operand: a sign and the magnitude, nothing for 0 (R78). -/
def dispText (d : Word) : String :=
  if 0 < d.toInt then "+" ++ Nat.repr d.toInt.natAbs
  else if d.toInt < 0 then "-" ++ Nat.repr d.toInt.natAbs
  else ""

/-- `Mem(sel, disp)` (R78). -/
def memText : Selector → Word → String
  | .direct, d => "[" ++ Nat.repr d.toNat ++ "]"
  | .base b, d => "[" ++ baseText b ++ dispText d ++ "]"

/-- `Rel(r)`: an explicit sign and the magnitude (R80). -/
def relText (r : DWord) : String :=
  if r.toInt < 0 then "-" ++ Nat.repr r.toInt.natAbs else "+" ++ Nat.repr r.toInt.natAbs

/-- The text of an operand; nothing for `None` (R76 to R80). -/
def operandText (w : Width) : Operand → String
  | .reg r => regText r
  | .mem sel d => memText sel d
  | .imm v => Nat.repr (truncW w v).toNat
  | .rel r => relText r
  | .none => ""

/-- The size word before a memory destination with an immediate source (R79). -/
def sizeWord (w : Width) : Operand → Operand → String
  | .mem _ _, .imm _ =>
    match w with
    | .byte => "byte "
    | .word => "word "
  | _, _ => ""

/-- The line of an instruction (R76): the mnemonic, a space and operand 0, a comma, a space and operand 1. -/
def text (I : Instruction) : String :=
  mnemonic I.op
    ++ (if I.dst = .none then "" else " " ++ sizeWord I.wide I.dst I.src ++ operandText I.wide I.dst)
    ++ (if I.src = .none then "" else ", " ++ operandText I.wide I.src)

end Sys2Proof.Machine
end

