-- ==== Sys2Proof/Machine/Trace.lean ====
section
/-! DEFINITION. The records a step emits: listing, trace and final dump (40_sequencer.md R92, R93). -/

namespace Sys2Proof.Machine

/-- What the host sees of cell c: a byte with no value (10_state.md R29) shows as `none` (log 10). -/
def State.cellImage (s : State) (k : Cell) : CellImage where
  lo := if s.hasValue (.regLo k) then some (loByte (s.cell k)) else none
  hi := if s.hasValue (.regHi k) then some (hiByte (s.cell k)) else none

/-- `FinalDump` (R93). -/
def State.finalDump (s : State) : Record :=
  .finalDump ⟨s.cellImage .a, s.cellImage .b, s.cellImage .c, s.cellImage .d, s.cellImage .sp, s.cellImage .bp,
    s.cellImage .si, s.cellImage .di⟩ s.ip

/-- The operand an instruction's execution writes, if any: the destination of `mov`, `add` and `sub`, and cx for
the loop instructions under `arch8086` (10_state.md R30, log 11). -/
def writtenOperand (p : BranchExecPolicy) (I : Instruction) : Operand :=
  match I.op with
  | .mov | .add | .sub => I.dst
  | .loop | .loopz | .loopnz =>
    match p with
    | .arch8086 => .reg .cx
    | .fault | .fallthrough => .none
  | .cmp | .jo | .jno | .jb | .jnb | .je | .jne | .jbe | .jnbe => .none
  | .js | .jns | .jp | .jnp | .jl | .jnl | .jle | .jnle | .jcxz => .none

/-- The `reg` field (R92), from the states before and after the step. -/
def regChange (s t : State) : Operand → Option RegChange
  | .reg r => some ⟨viewCell r, s.cellImage (viewCell r), t.cellImage (viewCell r)⟩
  | .mem _ _ | .imm _ | .rel _ | .none => none

/-- The `mem` field (R92), from the states before and after the step. -/
def memChange (s t : State) (w : Width) : Operand → Option MemChange
  | .mem sel d =>
    some ⟨(s.ea sel d).toNat, w.bytes, (s.accessAddrs w (s.ea sel d)).map s.dataByte,
      (s.accessAddrs w (s.ea sel d)).map t.dataByte⟩
  | .reg _ | .imm _ | .rel _ | .none => none

/-- The set of flags equal to 1, as letters (R92). -/
def State.flagLetters (s : State) : List FlagLetter :=
  (if s.zf then [.Z] else []) ++ (if s.sf then [.S] else [])

/-- The `flags` field: for `sub` and `cmp` (R92). -/
def flagsField (t : State) (op : Op) : Option (List FlagLetter) :=
  if op = .sub ∨ op = .cmp then some t.flagLetters else none

/-- `Trace(I, ...)` (R92) of the step that took `s` to `t`. -/
def traceOf (I : Instruction) (s t : State) : Record :=
  .trace (text I) (regChange s t (writtenOperand s.cfg.branchExec I))
    (memChange s t I.wide (writtenOperand s.cfg.branchExec I)) s.ip t.ip (flagsField t I.op)

/-- `Listing(I)` (R92). -/
def listingOf (I : Instruction) : Record := .listing (text I)

end Sys2Proof.Machine
end

