-- ==== Sys2Proof/Machine/Run.lean ====
section
/-! DEFINITION. The parts of a step around `exec`, and the host's moves before a run (40_sequencer.md). -/

namespace Sys2Proof.Machine

/-! ### The parts of a step (40_sequencer.md R83) -/

/-- `Decode()` at `ip` (30_encoding.md R54). -/
def State.decodeNext (s : State) : Except Trap Instr := decode s.cfg.grp1Other s.ip s.window

/-- The end of a run (R84): `STATE <- HALTED`; the final dump is emitted in execute mode only (R93, D23, log 9). -/
def State.finish (s : State) : State :=
  match s.mode with
  | .decodeOnly => s.halt
  | .execute => s.halt.emit s.finalDump

/-- A decode-only step (R82, R83): list the instruction and go on to the next one. -/
def State.listStep (s : State) (i : Instr) : State := (s.emit (listingOf (record i s.ip))).advance i.size

/-- After `exec` has taken `s` to `t`: the trace is emitted unless the step faulted (R83, 60_exceptions.md R140). -/
def State.traced (s : State) (i : Instr) (t : State) : State :=
  match t.status.run with
  | .faulted => t
  | .running | .halted => t.emit (traceOf (record i s.ip) s t)

/-- An execute-mode step of a decoded instruction (R83): `exec`, then the trace. -/
def State.execStep (s : State) (i : Instr) : Result :=
  match exec i s with
  | .next t => .next (s.traced i t)
  | .fault f => .fault f
  | .refused r => .refused r

/-- A step of a decoded instruction, by the mode latch (R82, R83). -/
def State.decodedStep (s : State) (i : Instr) : Result :=
  match s.mode with
  | .decodeOnly => .next (s.listStep i)
  | .execute => s.execStep i

/-- One step while `STATE = RUNNING` (R83). -/
def State.runningStep (s : State) : Result :=
  if s.ip = s.n then .next s.finish
  else
    match s.decodeNext with
    | .ok i => s.decodedStep i
    | .error t => .next (s.raise t)

/-! ### The host's moves before a run (40_sequencer.md R94, 70_reset_and_hazards.md R155) -/

/-- Place the program's bytes in `PB[0..n-1]`, set n and `MODE` (R155 steps 1 to 3). Of a program longer than
`BUF_CAP`, which is refused, `PB` takes the bytes it has room for. DESIGN CHOICE (log 16). -/
def State.loadProgram (s : State) (bytes : List Byte) (mode : Mode) : State :=
  { s with pb := Memory.writeList .zero s.pb 0 (bytes.take s.cfg.bufCap), n := bytes.length, mode := mode }

/-- Start a run (R81, R95, 70_reset_and_hazards.md R153): the state of 10_state.md R28 or R29, whatever the run
before left; with n > `BUF_CAP` the run is refused (60_exceptions.md R145). -/
def State.startRun (s : State) : State :=
  if s.cfg.bufCap < s.n then
    (State.initial s.cfg s.pb s.n s.mode).raise ⟨.inputTooLarge, BitVec.ofNat 32 s.n⟩
  else State.initial s.cfg s.pb s.n s.mode

/-- The four host actions of R155 in order. -/
def State.beginRun (s : State) (bytes : List Byte) (mode : Mode) : State := (s.loadProgram bytes mode).startRun

/-- `s` about to run the instruction whose bytes are `bytes`: they stand at `ip`, the program reaches past them,
and the block is RUNNING in execute mode (log 22). -/
def State.placeAtIp (s : State) (bytes : List Byte) : State :=
  { s with
    pb := Memory.writeList .zero s.pb s.ip bytes
    n := max s.n (s.ip + bytes.length)
    mode := .execute
    status := Status.initial }

end Sys2Proof.Machine
end

