-- ==== Sys2Proof/Machine/Step.lean ====
section
/-! DEFINITION. One step of the block (40_sequencer.md R83). -/

namespace Sys2Proof.Machine

/-- One step: "When `STATE` is `HALTED` or `FAULTED` the block has no step" (R83). -/
def step (s : State) : Host.Outcome State Fault Refusal :=
  match s.status.run with
  | .running => s.runningStep
  | .halted => .fault .halted
  | .faulted => .fault .faulted

/-- `s` with the instruction of opcode-table number `w` where the next step fetches it. -/
def State.withFetchWord (s : State) (nbits w : Nat) : State := s.placeAtIp (tableBytes nbits w)

end Sys2Proof.Machine
end

