-- ==== Sys2Proof/WellFormed.lean ====
section
/-! DEFINITION. Well-formed instructions: those some byte string decodes to (30_encoding.md R56 to R73). -/

namespace Sys2Proof

/-- A register operand has the instruction's width (30_encoding.md R70), and `[bp]` with no displacement has
no mod = 00 form, because that is the direct address (R57, R75). -/
def RM.wf (w : Width) : RM → Bool
  | .reg r => r.width == w
  | .base b => b != .bp
  | .direct _ | .disp8 _ _ | .disp16 _ _ => true

/-- An immediate is one that R61 can give: a byte when w = 0, the sign-extension of a byte when w = 1 and
s = 1. -/
def immWf (s : Bool) (imm : Word) : Width → Bool
  | .byte => imm == zext16 (loByte imm)
  | .word => !s || imm == sext16 (loByte imm)

/-- The encodings of a `mov` immediate to register/memory: 0x80-0x83 only under `GRP1_OTHER_POLICY = mov` and
only with a sub-operation outside 000, 101, 111 (R72). -/
def MovImmEnc.wf (p : Grp1OtherPolicy) : MovImmEnc → Bool
  | .irm _ => true
  | .grp1 _ sub => p == .mov && sub != 0b000 && sub != 0b101 && sub != 0b111

/-- Well-formedness under a `GRP1_OTHER_POLICY`. -/
def Instr.wf (p : Grp1OtherPolicy) : Instr → Bool
  | .movRmReg _ w reg rm | .addRmReg _ w reg rm | .subRmReg _ w reg rm | .cmpRmReg _ w reg rm =>
    reg.width == w && rm.wf w
  | .movImmRm enc w rm imm => enc.wf p && rm.wf w && immWf enc.s imm w
  | .addImmRm s w rm imm | .subImmRm s w rm imm | .cmpImmRm s w rm imm => rm.wf w && immWf s imm w
  | .movImmReg w reg imm => reg.width == w && immWf false imm w
  | .movMemAcc _ _ | .movAccMem _ _ => true
  | .addImmAcc w imm | .subImmAcc w imm | .cmpImmAcc w imm => immWf false imm w
  | .jo _ | .jno _ | .jb _ | .jnb _ | .je _ | .jne _ | .jbe _ | .jnbe _ => true
  | .js _ | .jns _ | .jp _ | .jnp _ | .jl _ | .jnl _ | .jle _ | .jnle _ => true
  | .jcxz _ | .loop _ | .loopz _ | .loopnz _ => true

end Sys2Proof
end

