-- ==== Sys2Proof/Safety.lean ====
section
/-! DEFINITION. The terms claims use: the invariant of a run, what a step keeps, and what a completed
instruction leaves. -/

namespace Sys2Proof.Machine

/-- A run that has not ended in a fault. -/
def State.Safe (s : State) : Prop := s.status.run ≠ .faulted

/-- What each value of `STATE` says of the rest of the status record and of `ip` (10_state.md R22,
40_sequencer.md R84, 60_exceptions.md R140). -/
def State.StatusOk (s : State) : Prop :=
  match s.status.run with
  | .running => s.status = Status.initial
  | .halted => s.status = ⟨.halted, .none, 0, 0⟩ ∧ s.ip = s.n
  | .faulted => s.status.code ≠ .none ∧ s.status.faultIp = s.ip

/-- The invariant of a run. -/
structure State.Inv (s : State) : Prop where
  /-- the parameters are legal (00_scope.md R8) -/
  cfg : s.cfg.wf
  /-- `ip` lies in 0..n (10_state.md R18) -/
  ip : s.ip ≤ s.n
  /-- the program fits, or the run was refused (60_exceptions.md R145) -/
  fits : s.n ≤ s.cfg.bufCap ∨ s.status.code = .inputTooLarge
  status : s.StatusOk
  /-- the program buffer keeps its canonical form and lies in 0..BUF_CAP-1 (R23) -/
  pb : Memory.wf .zero s.cfg.bufCap s.pb = true
  /-- the data memory keeps its canonical form and lies in 0..MEM_SIZE-1 (R24) -/
  mem : Memory.wf s.cfg.resetPolicy s.cfg.memSize s.mem = true
  /-- under `RESET_POLICY = zero` every register byte and flag has a value (R28) -/
  known : s.cfg.resetPolicy = .zero →
    s.known = Cells.fill ⟨true, true⟩ ∧ s.zfKnown = true ∧ s.sfKnown = true

/-- The parts no completed execution of an instruction writes: parameters, program buffer, n, mode latch, status
record, emitted records. -/
structure Fixed (s t : State) : Prop where
  cfg : t.cfg = s.cfg
  pb : t.pb = s.pb
  n : t.n = s.n
  mode : t.mode = s.mode
  status : t.status = s.status
  out : t.out = s.out

/-- Both flags, and whether they have a value, are kept. -/
structure FlagsKept (s t : State) : Prop where
  zf : t.zf = s.zf
  sf : t.sf = s.sf
  zfKnown : t.zfKnown = s.zfKnown
  sfKnown : t.sfKnown = s.sfKnown

/-- Both flags have these values. -/
structure FlagsAre (t : State) (z f : Bool) : Prop where
  zf : t.zf = z
  sf : t.sf = f
  zfKnown : t.zfKnown = true
  sfKnown : t.sfKnown = true

/-- A cell, and which of its bytes have a value, are kept. -/
def CellKept (s t : State) (k : Cell) : Prop := t.cell k = s.cell k ∧ t.known.get k = s.known.get k

/-- Every cell is kept. -/
def CellsKept (s t : State) : Prop := ∀ k, CellKept s t k

/-- Every cell but one is kept. -/
def CellsKeptBut (s t : State) (k : Cell) : Prop := ∀ j, j ≠ k → CellKept s t j

/-- Every data byte reads as before. -/
def MemKept (s t : State) : Prop := ∀ a, t.dataByte a = s.dataByte a

/-- Every data byte outside the list reads as before. -/
def MemKeptBut (s t : State) (as : List Nat) : Prop := ∀ a, a ∉ as → t.dataByte a = s.dataByte a

/-- The low byte of cell k is b and has a value. -/
def LowIs (t : State) (k : Cell) (b : Byte) : Prop := loByte (t.cell k) = b ∧ (t.known.get k).lo = true

/-- The high byte of cell k is b and has a value. -/
def HighIs (t : State) (k : Cell) (b : Byte) : Prop := hiByte (t.cell k) = b ∧ (t.known.get k).hi = true

/-- The low byte of cell k, and whether it has a value, are kept. -/
def LowKept (s t : State) (k : Cell) : Prop :=
  loByte (t.cell k) = loByte (s.cell k) ∧ (t.known.get k).lo = (s.known.get k).lo

/-- The high byte of cell k, and whether it has a value, are kept. -/
def HighKept (s t : State) (k : Cell) : Prop :=
  hiByte (t.cell k) = hiByte (s.cell k) ∧ (t.known.get k).hi = (s.known.get k).hi

/-- Register view r holds v in t, and the other byte of its cell is kept (10_state.md R15, R17). -/
def ViewWritten (s t : State) (r : Reg) (v : Word) : Prop :=
  match viewPart r with
  | .full => LowIs t (viewCell r) (loByte v) ∧ HighIs t (viewCell r) (hiByte v)
  | .low => LowIs t (viewCell r) (loByte v) ∧ HighKept s t (viewCell r)
  | .high => HighIs t (viewCell r) (loByte v) ∧ LowKept s t (viewCell r)

/-- The W/8 data bytes at a hold v in t, low byte first (20_memory.md R39). -/
def DataWritten (s t : State) (w : Width) (a v : Word) : Prop :=
  match w with
  | .byte => t.dataByte a.toNat = some (loByte v)
  | .word =>
    t.dataByte a.toNat = some (loByte v) ∧ t.dataByte (secondAddr s.cfg.wordAtFFFF a) = some (hiByte v)

/-- What the host sees of cell k in s: each byte that has a value, and nothing for one that has none (40_sequencer.md
R92, R93, log 10). -/
structure ShowsCell (s : State) (k : Cell) (img : CellImage) : Prop where
  lo : s.hasValue (.regLo k) = true → img.lo = some (loByte (s.cell k))
  hi : s.hasValue (.regHi k) = true → img.hi = some (hiByte (s.cell k))
  noLo : s.hasValue (.regLo k) = false → img.lo = none
  noHi : s.hasValue (.regHi k) = false → img.hi = none

/-- The register part of a trace record shows cell k before (s) and after (t). -/
def RegShown (s t : State) (k : Cell) (reg : Option RegChange) : Prop :=
  ∃ before after, reg = some ⟨k, before, after⟩ ∧ ShowsCell s k before ∧ ShowsCell t k after

/-- An operand that can be written: a register or a memory operand (40_sequencer.md R90). -/
def Operand.writable : Operand → Bool
  | .reg _ | .mem _ _ => true
  | .imm _ | .rel _ | .none => false

/-- An operand that can be read: `Rel` and `None` cannot (40_sequencer.md R89). -/
def Operand.readable : Operand → Bool
  | .reg _ | .mem _ _ | .imm _ => true
  | .rel _ | .none => false

/-- An instruction that decrements cx: a loop instruction under `arch8086` (43_jumps_loops.md R133 to R135). -/
def CountsDown (p : BranchExecPolicy) (op : Op) : Prop :=
  p = .arch8086 ∧ (op = .loop ∨ op = .loopz ∨ op = .loopnz)

/-- Destination `dst` holds v in t, and no other register byte and no other data byte has changed. The address
stored to is `s.ea`, at the state the instruction starts from. -/
def Written (s t : State) (w : Width) (dst : Operand) (v : Word) : Prop :=
  match dst with
  | .reg r => ViewWritten s t r v ∧ CellsKeptBut s t (viewCell r) ∧ MemKept s t
  | .mem sel d =>
    DataWritten s t w (s.ea sel d) v ∧ MemKeptBut s t (s.accessAddrs w (s.ea sel d)) ∧ CellsKept s t
  | .imm _ | .rel _ | .none => False

/-- The state that `raise Fault(code, info)` leaves (60_exceptions.md R139). -/
def faultState (s : State) (code : FaultCode) (info : DWord) : State :=
  { s with status := ⟨.faulted, code, s.ip, info⟩ }

/-- `mov` completes: whenever every byte it reads has a value, exec answers a next state in which the
destination holds the source's value, the flags and everything else are kept, and `ip` is past the
instruction (41_mov.md R163). -/
def MovCompletes (i : Instr) : Prop :=
  ∀ s : State, (∀ l ∈ s.movReads (record i s.ip), s.hasValue l = true) →
    ∃ t, exec i s = .next t ∧
      Written s t (record i s.ip).wide (record i s.ip).dst
        (s.readOp (record i s.ip).wide (record i s.ip).src) ∧
      FlagsKept s t ∧ Fixed s t ∧ t.ip = s.ip + i.size

/-- `add` completes (42_add_sub_cmp.md R164). -/
def AddCompletes (i : Instr) : Prop :=
  ∀ s : State, (∀ l ∈ s.aluReads (record i s.ip), s.hasValue l = true) →
    ∃ t, exec i s = .next t ∧
      Written s t (record i s.ip).wide (record i s.ip).dst
        (aluAdd (record i s.ip).wide (s.readOp (record i s.ip).wide (record i s.ip).dst)
          (s.readOp (record i s.ip).wide (record i s.ip).src)) ∧
      FlagsKept s t ∧ Fixed s t ∧ t.ip = s.ip + i.size

/-- `sub` completes, and writes both flags (42_add_sub_cmp.md R164). -/
def SubCompletes (i : Instr) : Prop :=
  ∀ s : State, (∀ l ∈ s.aluReads (record i s.ip), s.hasValue l = true) →
    ∃ t, exec i s = .next t ∧
      Written s t (record i s.ip).wide (record i s.ip).dst
        (aluSub (record i s.ip).wide (s.readOp (record i s.ip).wide (record i s.ip).dst)
          (s.readOp (record i s.ip).wide (record i s.ip).src)) ∧
      FlagsAre t
        (subZf (record i s.ip).wide (s.readOp (record i s.ip).wide (record i s.ip).dst)
          (s.readOp (record i s.ip).wide (record i s.ip).src))
        (subSf s.cfg.byteSfRule (record i s.ip).wide (s.readOp (record i s.ip).wide (record i s.ip).dst)
          (s.readOp (record i s.ip).wide (record i s.ip).src)) ∧
      Fixed s t ∧ t.ip = s.ip + i.size

/-- `cmp` completes: it writes both flags as `sub` would, and no register and no data byte
(42_add_sub_cmp.md R164). -/
def CmpCompletes (i : Instr) : Prop :=
  ∀ s : State, (∀ l ∈ s.aluReads (record i s.ip), s.hasValue l = true) →
    ∃ t, exec i s = .next t ∧ CellsKept s t ∧ MemKept s t ∧
      FlagsAre t
        (subZf (record i s.ip).wide (s.readOp (record i s.ip).wide (record i s.ip).dst)
          (s.readOp (record i s.ip).wide (record i s.ip).src))
        (subSf s.cfg.byteSfRule (record i s.ip).wide (s.readOp (record i s.ip).wide (record i s.ip).dst)
          (s.readOp (record i s.ip).wide (record i s.ip).src)) ∧
      Fixed s t ∧ t.ip = s.ip + i.size

/-- The forms of format RM, with their operations (30_encoding.md R58). -/
def rmRegForms : List ((Dir → Width → Reg → RM → Instr) × Op) :=
  [(.movRmReg, .mov), (.addRmReg, .add), (.subRmReg, .sub), (.cmpRmReg, .cmp)]

/-- The forms of format IRM-GRP1 (30_encoding.md R60). -/
def grp1Forms : List ((Bool → Width → RM → Word → Instr) × Op) :=
  [(.addImmRm, .add), (.subImmRm, .sub), (.cmpImmRm, .cmp)]

/-- The forms of format IACC (30_encoding.md R63). -/
def immAccForms : List ((Width → Word → Instr) × Op) := [(.addImmAcc, .add), (.subImmAcc, .sub), (.cmpImmAcc, .cmp)]

/-- The forms of format JMP (30_encoding.md R65, R67). -/
def jumpForms : List ((Byte → Instr) × Op) :=
  [(.jo, .jo), (.jno, .jno), (.jb, .jb), (.jnb, .jnb), (.je, .je), (.jne, .jne), (.jbe, .jbe), (.jnbe, .jnbe),
    (.js, .js), (.jns, .jns), (.jp, .jp), (.jnp, .jnp), (.jl, .jl), (.jnl, .jnl), (.jle, .jle), (.jnle, .jnle),
    (.jcxz, .jcxz), (.loop, .loop), (.loopz, .loopz), (.loopnz, .loopnz)]

/-- The jump/loop instructions other than `jne` that no state of the block can decide, with their opcode bytes
(43_jumps_loops.md R117 to R120, R122, R123, R126 to R131). -/
def flaglessBranches : List ((Byte → Instr) × Byte) :=
  [(.jo, 0x70), (.jno, 0x71), (.jb, 0x72), (.jnb, 0x73), (.jbe, 0x76), (.jnbe, 0x77), (.jp, 0x7A), (.jnp, 0x7B),
    (.jl, 0x7C), (.jnl, 0x7D), (.jle, 0x7E), (.jnle, 0x7F)]

/-- The jump/loop instructions other than `jne` that ZF, SF and cx decide, with their opcode bytes (R121, R124,
R125, R132 to R135). -/
def decidableBranches : List ((Byte → Instr) × Byte) :=
  [(.je, 0x74), (.js, 0x78), (.jns, 0x79), (.jcxz, 0xE3), (.loop, 0xE2), (.loopz, 0xE1), (.loopnz, 0xE0)]

/-- The target of a taken branch lies in 0..n (40_sequencer.md R87, R88). -/
def TargetInRange (s : State) (rel : Byte) : Prop :=
  0 ≤ (s.ip : Int) + 2 + rel.toInt ∧ (s.ip : Int) + 2 + rel.toInt ≤ (s.n : Int)

/-- What a branch does once its taken test has come out as `taken` (43_jumps_loops.md R114): `upd` is the state with
the branch's other writes. -/
def BranchOutcome (r : Result) (s : State) (rel : Byte) (taken : Bool) (upd : State) : Prop :=
  (taken = true → TargetInRange s rel → r = .next { upd with ip := ((s.ip : Int) + 2 + rel.toInt).toNat }) ∧
  (taken = true → ¬ TargetInRange s rel →
    r = .next (faultState s .branchOutOfRange (BitVec.ofInt 32 ((s.ip : Int) + 2 + rel.toInt)))) ∧
  (taken = false → r = .next { upd with ip := s.ip + 2 })

/-- The 188 unrecognised opcode bytes, as 30_encoding.md R74 lists them. -/
def Unrecognised (b : Byte) : Prop :=
  (0x06 ≤ b.toNat ∧ b.toNat ≤ 0x27) ∨ (0x2E ≤ b.toNat ∧ b.toNat ≤ 0x37) ∨ (0x3E ≤ b.toNat ∧ b.toNat ≤ 0x6F) ∨
  (0x84 ≤ b.toNat ∧ b.toNat ≤ 0x87) ∨ (0x8C ≤ b.toNat ∧ b.toNat ≤ 0x9F) ∨ (0xA4 ≤ b.toNat ∧ b.toNat ≤ 0xAF) ∨
  (0xC0 ≤ b.toNat ∧ b.toNat ≤ 0xC5) ∨ (0xC8 ≤ b.toNat ∧ b.toNat ≤ 0xDF) ∨ (0xE4 ≤ b.toNat ∧ b.toNat ≤ 0xFF)

end Sys2Proof.Machine
end

