-- ==== Sys2Proof/Certificates/Slice0/Obligations.lean ====
section
/-! DEFINITION. The statements for the provers. Each docstring names the rules of spec/ it rests on. Where a rule
is the spec's own decision (marked D<n> in 92_eei_decisions.md), the docstring says so (log 18). -/

open Sys2Proof Sys2Proof.Machine

/-! ### The invariant, reset and the start of a run -/

/-- The reset state meets the invariant of a run. Rests on 10_state.md section 7 (decision D7) and on the model's
choice of an empty program and EXECUTE mode at reset (log 3). -/
def Obligations.ResetMeetsInvariant : Prop := State.reset.Inv

/-- Every step keeps the invariant of a run, from every state that meets it: legal parameters, `ip` in 0..n, a
consistent status record, both memories in canonical form and inside their sizes, and every byte and flag with a
value under `RESET_POLICY = zero`. -/
def Obligations.StepKeepsInvariant : Prop := ∀ s t : State, s.Inv → step s = .next t → t.Inv

/-- Starting a run from any state with legal parameters and a canonical program buffer gives a state that meets the
invariant, whatever program and mode the host gives, a too large program included (D8, D31, and log 16 for the
buffer's contents then). -/
def Obligations.BeginRunMeetsInvariant : Prop :=
  ∀ (s : State) (bytes : List Byte) (mode : Mode), s.cfg.wf → Memory.wf .zero s.cfg.bufCap s.pb = true →
    (s.beginRun bytes mode).Inv

/-- With `RESET_POLICY = zero` and a program that fits, every run starts with all cells, flags and data bytes 0,
`ip = 0`, an initial status record, no record emitted, and the host's program, n and mode (decisions D7, D8). -/
def Obligations.RunStartsFromZeroState : Prop :=
  ∀ (s : State) (bytes : List Byte) (mode : Mode), s.cfg.resetPolicy = .zero → bytes.length ≤ s.cfg.bufCap →
    (∀ k, (s.beginRun bytes mode).cell k = 0) ∧
    (s.beginRun bytes mode).zf = false ∧ (s.beginRun bytes mode).sf = false ∧
    (∀ a, (s.beginRun bytes mode).dataByte a = some 0) ∧
    (∀ l, (s.beginRun bytes mode).hasValue l = true) ∧
    (s.beginRun bytes mode).ip = 0 ∧ (s.beginRun bytes mode).status = ⟨.running, .none, 0, 0⟩ ∧
    (s.beginRun bytes mode).n = bytes.length ∧ (s.beginRun bytes mode).mode = mode ∧
    (s.beginRun bytes mode).out = [] ∧ (s.beginRun bytes mode).cfg = s.cfg ∧
    ∀ j, j < bytes.length → bytes[j]? = some ((s.beginRun bytes mode).pbByte j)

/-- With `RESET_POLICY = undefined` no register byte, flag or data byte has a value at the start of a run, and `ip`
and the status record start as under `zero` (decision D7). -/
def Obligations.RunStartsWithNoValues : Prop :=
  ∀ (s : State) (bytes : List Byte) (mode : Mode), s.cfg.resetPolicy = .undefined → bytes.length ≤ s.cfg.bufCap →
    (∀ l, (s.beginRun bytes mode).hasValue l = false) ∧
    (s.beginRun bytes mode).ip = 0 ∧ (s.beginRun bytes mode).status = ⟨.running, .none, 0, 0⟩

/-- A program longer than `BUF_CAP` is refused before any step, with `INPUT_TOO_LARGE`, `FAULT_IP = 0` and the
length as information word, and the rest of the state but PB is the start state (decision D31). Under
`RESET_POLICY = zero` that is the start state of 10_state.md R28, as R145 says; under `undefined` the statement says
that of R29, which is the model's own choice and not the spec's (log 16, DESIGN CHOICE). -/
def Obligations.OversizedProgramRefused : Prop :=
  ∀ (s : State) (bytes : List Byte) (mode : Mode), s.cfg.bufCap < bytes.length →
    (s.beginRun bytes mode).status = ⟨.faulted, .inputTooLarge, 0, BitVec.ofNat 32 bytes.length⟩ ∧
    step (s.beginRun bytes mode) = .fault .faulted ∧
    { s.beginRun bytes mode with status := Status.initial, pb := [] }
      = State.initial s.cfg [] bytes.length mode

/-- Runs are independent: from any two states of one machine, starting a run gives the same state and the same
program bytes; only what lies in `PB` past the program can differ (decision D8). -/
def Obligations.RunsAreIndependent : Prop :=
  ∀ (s t : State) (bytes : List Byte) (mode : Mode), s.cfg = t.cfg →
    { s.beginRun bytes mode with pb := [] } = { t.beginRun bytes mode with pb := [] } ∧
    ∀ j, j < bytes.length → j < s.cfg.bufCap →
      (s.beginRun bytes mode).pbByte j = (t.beginRun bytes mode).pbByte j

/-! ### The sequencer -/

/-- A step in execute mode runs the decoded instruction: when the bytes at `ip` decode to i, the step is `exec i`,
and then, unless it faulted, one trace record is emitted (40_sequencer.md R83). -/
def Obligations.StepRunsDecodedInstruction : Prop :=
  ∀ (s : State) (i : Instr), s.status.run = .running → s.mode = .execute → s.ip ≠ s.n →
    decode s.cfg.grp1Other s.ip s.window = .ok i →
    step s =
      match exec i s with
      | .next t => .next (if t.status.run = .faulted then t else t.emit (traceOf (record i s.ip) s t))
      | .fault f => .fault f
      | .refused r => .refused r

/-- A decode-only step lists the decoded instruction and sweeps on: nothing else changes, and no branch is taken
(decision D12). -/
def Obligations.DecodeOnlyStepLists : Prop :=
  ∀ (s : State) (i : Instr), s.status.run = .running → s.mode = .decodeOnly → s.ip ≠ s.n →
    decode s.cfg.grp1Other s.ip s.window = .ok i →
    step s = .next { s with ip := s.ip + i.size, out := s.out ++ [.listing (text (record i s.ip))] }

/-- In either mode, a step whose bytes do not decode writes the status record and nothing else
(60_exceptions.md R139, R140, decision D19). -/
def Obligations.DecodeFaultWritesOnlyStatus : Prop :=
  ∀ (s : State) (x : Trap), s.status.run = .running → s.ip ≠ s.n →
    decode s.cfg.grp1Other s.ip s.window = .error x →
    step s = .next { s with status := ⟨.faulted, x.code, s.ip, x.info⟩ }

/-- The run halts at the first step that finds `ip = n`; the final dump, with each byte of the 8 cells (nothing for a
byte with no value, log 10) and the final `ip`, is emitted in execute mode only (decisions D10, D23, log 9). -/
def Obligations.RunHaltsAtItsEnd : Prop :=
  ∀ s : State, s.status.run = .running → s.ip = s.n →
    (s.mode = .execute → ∃ cells : Cells CellImage,
      step s = .next { s with
        status := { s.status with run := .halted }, out := s.out ++ [.finalDump cells s.ip] } ∧
      ∀ k, ShowsCell s k (cells.get k)) ∧
    (s.mode = .decodeOnly → step s = .next { s with status := { s.status with run := .halted } })

/-- "When `STATE` is `HALTED` or `FAULTED` the block has no step" (40_sequencer.md R83): the model's step then stops
(log 2). -/
def Obligations.NoStepAfterTheEnd : Prop :=
  ∀ s : State, (s.status.run = .halted → step s = .fault .halted) ∧ (s.status.run = .faulted → step s = .fault .faulted)

/-- A step that faults writes the status record and nothing else, with `FAULT_IP` the instruction's address
(60_exceptions.md R139, R140, decision D19). -/
def Obligations.FaultingStepIsPrecise : Prop :=
  ∀ s t : State, s.status.run = .running → step s = .next t → t.status.run = .faulted →
    ∃ code info, code ≠ .none ∧ t = { s with status := ⟨.faulted, code, s.ip, info⟩ }

/-- The mode latch holds for the whole run, and the host sets it before the run (10_state.md R25); so do the program
buffer and n (10_state.md R23, decision D2) and, by the model's own choice of where the parameters live, the
parameters (log 1, DESIGN CHOICE): no step of any instruction in any mode changes them. -/
def Obligations.StepKeepsModeAndProgram : Prop :=
  (∀ s t : State, step s = .next t → t.mode = s.mode ∧ t.pb = s.pb ∧ t.n = s.n ∧ t.cfg = s.cfg) ∧
  ∀ (s : State) (bytes : List Byte) (mode : Mode), (s.beginRun bytes mode).mode = mode

/-- A completed execute-mode step goes on past the instruction, or a branch goes to its target in 0..n
(40_sequencer.md R86, R87, decision D11). -/
def Obligations.CompletedStepAdvancesOrBranches : Prop :=
  ∀ (s t : State) (i : Instr), s.status.run = .running → s.mode = .execute → s.ip ≠ s.n →
    decode s.cfg.grp1Other s.ip s.window = .ok i → step s = .next t → t.status.run ≠ .faulted →
    t.ip = s.ip + i.size ∨
    ∃ rel, (record i s.ip).dst = relOperand rel ∧ TargetInRange s rel ∧ (t.ip : Int) = s.ip + 2 + rel.toInt

/-- A completed execute-mode step emits exactly one trace record: the text; `ip` before and after; for `sub` and `cmp`
the flags equal to 1; for `mov`, `add` and `sub` the cell or the data bytes of the destination before and after; for
`loop`, `loopz` and `loopnz` under `arch8086` cell c before and after; and for `cmp`, `jne`, every other jump and the
loops under another policy no register and no memory change (40_sequencer.md R92, 10_state.md R30, decision D23; the
content of the fields is log 10, log 11). -/
def Obligations.CompletedStepEmitsOneTrace : Prop :=
  ∀ (s t : State) (i : Instr), s.status.run = .running → s.mode = .execute → s.ip ≠ s.n →
    decode s.cfg.grp1Other s.ip s.window = .ok i → step s = .next t → t.status.run ≠ .faulted →
    ∃ reg mem flags, t.out = s.out ++ [.trace (text (record i s.ip)) reg mem s.ip t.ip flags] ∧
      ((record i s.ip).op = .sub ∨ (record i s.ip).op = .cmp → flags =
        some ((if t.zf then [FlagLetter.Z] else []) ++ (if t.sf then [FlagLetter.S] else []))) ∧
      ((record i s.ip).op ≠ .sub ∧ (record i s.ip).op ≠ .cmp → flags = none) ∧
      ((record i s.ip).op = .mov ∨ (record i s.ip).op = .add ∨ (record i s.ip).op = .sub →
        (∀ r, (record i s.ip).dst = .reg r → RegShown s t (viewCell r) reg ∧ mem = none) ∧
        (∀ sel d, (record i s.ip).dst = .mem sel d →
          reg = none ∧
          mem = some ⟨(s.ea sel d).toNat, (record i s.ip).wide.bytes,
            (s.accessAddrs (record i s.ip).wide (s.ea sel d)).map s.dataByte,
            (s.accessAddrs (record i s.ip).wide (s.ea sel d)).map t.dataByte⟩)) ∧
      (CountsDown s.cfg.branchExec (record i s.ip).op → RegShown s t .c reg ∧ mem = none) ∧
      ((record i s.ip).op ≠ .mov ∧ (record i s.ip).op ≠ .add ∧ (record i s.ip).op ≠ .sub →
        ¬ CountsDown s.cfg.branchExec (record i s.ip).op → reg = none ∧ mem = none)

/-- Under `RESET_POLICY = zero` no step raises `UNINITIALISED_READ` (60_exceptions.md R138, decision D7). -/
def Obligations.ZeroPolicyNeverFaultsOnRead : Prop :=
  ∀ s t : State, s.cfg.resetPolicy = .zero → s.status.run = .running → step s = .next t →
    t.status.run = .faulted → t.status.code ≠ .uninitialisedRead

/-- The instruction placed by `withFetchWord` is the one the very next step runs, from any state and under either
`GRP1_OTHER_POLICY` (the model's own statement: log 3, log 14, log 22). -/
def Obligations.FetchWordRunsItsInstruction : Prop :=
  ∀ (s : State) (nbits w : Nat) (i : Instr), decodeTableWord nbits w = some i →
    step (s.withFetchWord nbits w) = (s.withFetchWord nbits w).execStep i

/-! ### The decoder and the encoder -/

/-- Decoding the bytes of any well-formed instruction of any family gives it back, with every operand, whatever
follows it and wherever it stands (30_encoding.md sections 4 and 5; decisions D14, D16, D25 to D28). -/
def Obligations.EncodeThenDecode : Prop :=
  ∀ (p : Grp1OtherPolicy) (ip : Nat) (i : Instr) (rest : List Byte), i.wf p = true →
    decode p ip (encode i ++ rest) = .ok i

/-- Whatever bytes decode, decode to a well-formed instruction of 2 to 6 bytes, and re-encoding it gives exactly the
bytes consumed (30_encoding.md R66, R69; the document's round-trip property, 95_test_vectors.md S9). -/
def Obligations.DecodeThenEncode : Prop :=
  ∀ (p : Grp1OtherPolicy) (ip : Nat) (bs : List Byte) (i : Instr), decode p ip bs = .ok i →
    i.wf p = true ∧ 2 ≤ i.size ∧ i.size ≤ 6 ∧ i.size ≤ bs.length ∧ encode i = bs.take i.size

/-- When the program ends after k of an instruction's bytes, the decoder raises `TRUNCATED` naming the first missing
byte (30_encoding.md R50, decision D20). -/
def Obligations.CutInstructionIsTruncated : Prop :=
  ∀ (p : Grp1OtherPolicy) (ip : Nat) (i : Instr) (k : Nat), i.wf p = true → k < i.size →
    decode p ip ((encode i).take k) = .error ⟨.truncated, BitVec.ofNat 32 (ip + k)⟩

/-- Every one of the 188 unrecognised opcode bytes raises `UNRECOGNIZED_OPCODE` at decode with the byte as
information word, in both modes, and no other opcode byte raises it (30_encoding.md R74). -/
def Obligations.UnrecognisedOpcodeFaults : Prop :=
  ∀ s : State, s.status.run = .running → s.ip < s.n →
    (Unrecognised (s.pbByte s.ip) →
      step s = .next { s with status := ⟨.faulted, .unrecognizedOpcode, s.ip, (s.pbByte s.ip).setWidth 32⟩ }) ∧
    (¬ Unrecognised (s.pbByte s.ip) →
      ∀ x, decode s.cfg.grp1Other s.ip s.window = .error x → x.code ≠ .unrecognizedOpcode)

/-- Opcode bytes 0x80-0x83 with a sub-operation outside 000, 101, 111: under `GRP1_OTHER_POLICY = fault` they raise
`UNSUPPORTED_SUBOP` with the field as information word, whatever follows byte 1; under `mov` they decode as `mov` with
the operands and the length of the `add` at the same bits (30_encoding.md R72, decision D14). -/
def Obligations.OtherSubOperations : Prop :=
  (∀ (ip : Nat) (b0 m : Byte) (rest : List Byte), 0x80 ≤ b0.toNat ∧ b0.toNat ≤ 0x83 →
    regField m ≠ 0b000 → regField m ≠ 0b101 → regField m ≠ 0b111 →
    decode .fault ip (b0 :: m :: rest) = .error ⟨.unsupportedSubop, (regField m).setWidth 32⟩) ∧
  (∀ (ip : Nat) (sx : Bool) (sub : BitVec 3) (w : Width) (rm : RM) (imm : Word) (rest : List Byte),
    sub ≠ 0b000 → sub ≠ 0b101 → sub ≠ 0b111 → rm.wf w = true → immWf sx imm w = true →
    decode .mov ip (encodeGrp1 sx sub w rm imm ++ rest) = .ok (.movImmRm (.grp1 sx sub) w rm imm) ∧
    ∀ a, record (.movImmRm (.grp1 sx sub) w rm imm) a = { record (.addImmRm sx w rm imm) a with op := .mov })

/-- A sanity statement: words written out from the spec's encodings decode to the instructions they stand for
(95_test_vectors.md sections 1 and 2). -/
def Obligations.SpecWordsDecode : Prop :=
  decode .fault 0 [0x89, 0xD8] = .ok (.movRmReg .toRm .word .bx (.reg .ax)) ∧
  decode .fault 0 [0x8B, 0x76, 0xFB] = .ok (.movRmReg .toReg .word .si (.disp8 .bp 0xFB)) ∧
  decode .fault 0 [0xC7, 0x85, 0x85, 0x03, 0x5B, 0x01] = .ok (.movImmRm (.irm 0) .word (.disp16 .di 901) 347) ∧
  decode .fault 0 [0xA3, 0x0F, 0x00] = .ok (.movAccMem .word 15) ∧
  decode .fault 0 [0x83, 0xC6, 0xFE] = .ok (.addImmRm true .word (.reg .si) 65534) ∧
  decode .fault 0 [0x2D, 0xE8, 0x03] = .ok (.subImmAcc .word 1000) ∧
  decode .fault 0 [0x3B, 0xC3] = .ok (.cmpRmReg .toReg .word .ax (.reg .bx)) ∧
  decode .fault 0 [0x75, 0xFE] = .ok (.jne 0xFE) ∧
  decode .fault 0 [0xE0, 0xFC] = .ok (.loopnz 0xFC)

/-- A sanity statement: listings as the spec prints them (30_encoding.md section 8, decision D22). -/
def Obligations.SpecListingsPrint : Prop :=
  text (record (.addImmRm true .word (.reg .si) 65534) 0) = "add si, 65534" ∧
  text (record (.movImmRm (.irm 0) .byte (.base .bx) 5) 0) = "mov byte [bx], 5" ∧
  text (record (.movRmReg .toReg .word .ax (.disp8 .bxDi 0xFF)) 0) = "mov ax, [bx+di-1]" ∧
  text (record (.movRmReg .toReg .word .ax (.disp8 .bp 0)) 0) = "mov ax, [bp]" ∧
  text (record (.movMemAcc .byte 2555) 0) = "mov al, [2555]" ∧
  text (record (.cmpImmRm true .word (.direct 4834) 29) 0) = "cmp word [4834], 29" ∧
  text (record (.jne 0xFE) 0) = "jne -2" ∧
  text (record (.jcxz 0) 0) = "jcxz +0"

/-! ### Registers, data memory, effective addresses -/

/-- `RegRead(r)`: a word view reads its whole cell, a low view bits 7:0 and a high view bits 15:8, zero-extended
(10_state.md R16). -/
def Obligations.RegReadSelectsTheView : Prop :=
  ∀ (s : State) (r : Reg) (j : Nat),
    (s.regRead r).getLsbD j =
      match viewPart r with
      | .full => (s.cell (viewCell r)).getLsbD j
      | .low => decide (j < 8) && (s.cell (viewCell r)).getLsbD j
      | .high => decide (j < 8) && (s.cell (viewCell r)).getLsbD (j + 8)

/-- `RegWrite(r, v)` replaces exactly the bits of the view, gives exactly those bytes a value, leaves every other bit
of every cell and everything else alone, and reads back as v (10_state.md R17, which the spec derives from R15 and
R16). -/
def Obligations.RegWriteChangesOnlyTheView : Prop :=
  ∀ (s : State) (r : Reg) (v : Word),
    ViewWritten s (s.regWrite r v) r v ∧ CellsKeptBut s (s.regWrite r v) (viewCell r) ∧
    MemKept s (s.regWrite r v) ∧ FlagsKept s (s.regWrite r v) ∧ Fixed s (s.regWrite r v) ∧
    (s.regWrite r v).ip = s.ip ∧
    (∀ r' : Reg, viewCell r' ≠ viewCell r → (s.regWrite r v).regRead r' = s.regRead r') ∧
    (s.regWrite r v).regRead r =
      match r.width with
      | .byte => zext16 (loByte v)
      | .word => v

/-- `MemWrite` stores W/8 bytes, low byte first, at a and (for a word) at the address after it, which at 0xFFFF is 0
under `wrap16` and 0x10000 under `linear`; no other byte changes; `MemRead` reads the value back, at W and byte by
byte (20_memory.md R38 to R40, decisions D3, D5). -/
def Obligations.DataReadAfterWrite : Prop :=
  ∀ (s : State) (a v : Word),
    (s.memWrite .byte a v).memRead .byte a = zext16 (loByte v) ∧
    (s.memWrite .word a v).memRead .word a = v ∧
    (s.memWrite .word a v).memRead .byte a = zext16 (loByte v) ∧
    (∀ b, b ≠ a.toNat → (s.memWrite .byte a v).dataByte b = s.dataByte b) ∧
    (s.cfg.wordAtFFFF = .wrap16 →
      (s.memWrite .word a v).dataByte ((a.toNat + 1) % 65536) = some (hiByte v) ∧
      (s.memWrite .word a v).memRead .byte (a + 1) = zext16 (hiByte v) ∧
      ∀ b, b ≠ a.toNat → b ≠ (a.toNat + 1) % 65536 → (s.memWrite .word a v).dataByte b = s.dataByte b) ∧
    (s.cfg.wordAtFFFF = .linear →
      (s.memWrite .word a v).dataByte (a.toNat + 1) = some (hiByte v) ∧
      ∀ b, b ≠ a.toNat → b ≠ a.toNat + 1 → (s.memWrite .word a v).dataByte b = s.dataByte b)

/-- The effective address is the sum of the selector's registers and the signed displacement, modulo 2^16; the direct
selector is the address itself (20_memory.md R35, R36, decision D4). -/
def Obligations.EffectiveAddressIsWrappedSum : Prop :=
  ∀ (s : State) (d : Word), s.ea .direct d = d ∧
    ∀ p ∈ [(Base.bxSi, [Reg.bx, Reg.si]), (Base.bxDi, [Reg.bx, Reg.di]), (Base.bpSi, [Reg.bp, Reg.si]),
        (Base.bpDi, [Reg.bp, Reg.di]), (Base.si, [Reg.si]), (Base.di, [Reg.di]), (Base.bp, [Reg.bp]),
        (Base.bx, [Reg.bx])],
      ((s.ea (.base p.1) d).toNat : Int) =
        ((p.2.map (fun r => ((s.regRead r).toNat : Int))).sum + d.toInt) % 65536

/-! ### The ALU -/

/-- `AluAdd_W` wraps modulo 2^W (42_add_sub_cmp.md R102, which the spec derives). -/
def Obligations.AluAddWraps : Prop :=
  ∀ a b : Word, (aluAdd .word a b).toNat = (a.toNat + b.toNat) % 65536 ∧
    (a.toNat < 256 → b.toNat < 256 → (aluAdd .byte a b).toNat = (a.toNat + b.toNat) % 256)

/-- `AluSub_W(a, b) = trunc_W(a - b)`: the difference wraps modulo 2^W; 0 - 1 is 0xFFFF at W = 16 and 0xFF at W = 8
(42_add_sub_cmp.md R103). No flag records a borrow or an overflow: operands with the same W-bit difference give the
same flags, except that under `bit15_zext` the SF of bytes is by R104 the comparison of the operands. -/
def Obligations.AluSubWraps : Prop :=
  (∀ a b : Word, ((aluSub .word a b).toNat : Int) = ((a.toNat : Int) - b.toNat) % 65536 ∧
    (a.toNat < 256 → b.toNat < 256 → ((aluSub .byte a b).toNat : Int) = ((a.toNat : Int) - b.toNat) % 256)) ∧
  aluSub .word 0 1 = 0xFFFF ∧ aluSub .byte 0 1 = 0xFF ∧
  ∀ (rule : ByteSfRule) (w : Width) (a b a' b' : Word), aluSub w a b = aluSub w a' b' →
    subZf w a b = subZf w a' b' ∧
    (w = .word ∨ rule = .msb8 → subSf rule w a b = subSf rule w a' b')

/-- The flags of `sub` and `cmp` for W-bit operands: ZF iff they are equal; SF the top bit of the wrapped difference,
or, for bytes under `bit15_zext`, iff the first is below the second (42_add_sub_cmp.md R104, decision D17). -/
def Obligations.SubFlagsOfOperands : Prop :=
  (∀ (rule : ByteSfRule) (a b : Word), subZf .word a b = decide (a = b) ∧
    subSf rule .word a b = decide (32768 ≤ ((a.toNat : Int) - b.toNat) % 65536)) ∧
  ∀ a b : Word, a.toNat < 256 → b.toNat < 256 →
    subZf .byte a b = decide (a = b) ∧
    subSf .msb8 .byte a b = decide (128 ≤ ((a.toNat : Int) - b.toNat) % 256) ∧
    subSf .bit15Zext .byte a b = decide (a.toNat < b.toNat)

/-! ### mov, add, sub, cmp: result, frame and completion -/

/-- Every form of `mov` completes whenever the bytes it reads have values: the destination view or the W/8 data bytes
at its effective address hold the source's value, and every other register byte, data byte, flag and part of the
state is kept, but for `ip`, which is past the instruction (41_mov.md R163, R97 to R101).
RecordOfEachForm gives the operands, width and size of each form, and ReadOpOfEachKind the values read. -/
def Obligations.MovFormsComplete : Prop :=
  (∀ d w reg rm, MovCompletes (.movRmReg d w reg rm)) ∧
  (∀ enc w rm imm, MovCompletes (.movImmRm enc w rm imm)) ∧
  (∀ w reg imm, MovCompletes (.movImmReg w reg imm)) ∧
  (∀ w addr, MovCompletes (.movMemAcc w addr)) ∧
  (∀ w addr, MovCompletes (.movAccMem w addr))

/-- Every form of `add` completes whenever the bytes it reads have values: the destination holds the W-bit sum, the
flags and everything else are kept (42_add_sub_cmp.md R164, R105 to R107).
RecordOfEachForm gives the operands, width and size of each form, and ReadOpOfEachKind the values read. -/
def Obligations.AddFormsComplete : Prop :=
  (∀ d w reg rm, AddCompletes (.addRmReg d w reg rm)) ∧
  (∀ sx w rm imm, AddCompletes (.addImmRm sx w rm imm)) ∧
  (∀ w imm, AddCompletes (.addImmAcc w imm))

/-- Every form of `sub` completes whenever the bytes it reads have values: the destination holds the W-bit difference,
ZF and SF are those of its operands, and everything else is kept (42_add_sub_cmp.md R164, R108 to R110).
RecordOfEachForm gives the operands, width and size of each form, and ReadOpOfEachKind the values read. -/
def Obligations.SubFormsComplete : Prop :=
  (∀ d w reg rm, SubCompletes (.subRmReg d w reg rm)) ∧
  (∀ sx w rm imm, SubCompletes (.subImmRm sx w rm imm)) ∧
  (∀ w imm, SubCompletes (.subImmAcc w imm))

/-- Every form of `cmp` completes whenever the bytes it reads have values: ZF and SF are those of its operands, and no
register, no data byte and nothing else changes (42_add_sub_cmp.md R164, R111 to R113).
RecordOfEachForm gives the operands, width and size of each form, and ReadOpOfEachKind the values read. -/
def Obligations.CmpFormsComplete : Prop :=
  (∀ d w reg rm, CmpCompletes (.cmpRmReg d w reg rm)) ∧
  (∀ sx w rm imm, CmpCompletes (.cmpImmRm sx w rm imm)) ∧
  (∀ w imm, CmpCompletes (.cmpImmAcc w imm))

/-- A `mov`, `add`, `sub` or `cmp` that reads a byte with no value raises `UNINITIALISED_READ` naming the first one in
the order effective-address registers, destination's old value (not for `mov`), source, and writes nothing else
(10_state.md R29, 60_exceptions.md R142, decisions D7, D20, log 6). -/
def Obligations.ReadOfNoValueFaults : Prop :=
  ∀ (i : Instr) (s : State) (pre : List Loc) (l : Loc) (post : List Loc),
    ((record i s.ip).op = .mov ∧ s.movReads (record i s.ip) = pre ++ l :: post) ∨
    (((record i s.ip).op = .add ∨ (record i s.ip).op = .sub ∨ (record i s.ip).op = .cmp) ∧
      s.aluReads (record i s.ip) = pre ++ l :: post) →
    (∀ x ∈ pre, s.hasValue x = true) → s.hasValue l = false →
    exec i s = .next { s with status := ⟨.faulted, .uninitialisedRead, s.ip, l.info⟩ }

/-- `mov`, `add` and every jump/loop instruction leave ZF and SF unchanged; no instruction but `sub` and `cmp` writes
the flags (10_state.md R21). -/
def Obligations.OnlySubAndCmpWriteFlags : Prop :=
  ∀ (i : Instr) (s t : State), (record i s.ip).op ≠ .sub → (record i s.ip).op ≠ .cmp → exec i s = .next t →
    FlagsKept s t

/-- An instruction changes a cell only if it is its destination view's (or cell c for a loop instruction under
`arch8086`), the other byte of that cell only if the view is the whole cell, and a data byte only inside its memory
destination at the address its operand computes; `cmp` and the jumps change neither (10_state.md R17, R30,
95_test_vectors.md section 6 item 6). -/
def Obligations.OnlyTheDestinationChanges : Prop :=
  ∀ (i : Instr) (s t : State), exec i s = .next t →
    (∀ k, (∀ r, (record i s.ip).dst = .reg r → viewCell r ≠ k) →
      ¬(k = .c ∧ CountsDown s.cfg.branchExec (record i s.ip).op) → CellKept s t k) ∧
    (∀ r, (record i s.ip).dst = .reg r →
      (viewPart r = .low → HighKept s t (viewCell r)) ∧ (viewPart r = .high → LowKept s t (viewCell r))) ∧
    (∀ a, (∀ sel d, (record i s.ip).dst = .mem sel d → a ∉ s.accessAddrs (record i s.ip).wide (s.ea sel d)) →
      t.dataByte a = s.dataByte a) ∧
    ((record i s.ip).op = .cmp → CellsKept s t ∧ MemKept s t)

/-! ### Jumps and loops -/

/-- `jne`, under every policy: with ZF = 0 it goes to its target when that lies in 0..n and raises
`BRANCH_OUT_OF_RANGE` when it does not; with ZF = 1 it goes on to the next instruction; nothing but `ip` is written;
ZF with no value raises `UNINITIALISED_READ`. It is the byte 0x75 and the displacement, and raises `TRUNCATED` when
byte 1 lies at or past n (43_jumps_loops.md R115). -/
def Obligations.JneBranches : Prop :=
  (∀ (p : Grp1OtherPolicy) (ip : Nat) (rel : Byte) (rest : List Byte),
    decode p ip (0x75 :: rel :: rest) = .ok (.jne rel) ∧ (Instr.jne rel).size = 2 ∧
    decode p ip [0x75] = .error ⟨.truncated, BitVec.ofNat 32 (ip + 1)⟩) ∧
  ∀ (rel : Byte) (s : State),
    (s.hasValue .zf = true → s.zf = false → TargetInRange s rel →
      exec (.jne rel) s = .next { s with ip := ((s.ip : Int) + 2 + rel.toInt).toNat }) ∧
    (s.hasValue .zf = true → s.zf = false → ¬ TargetInRange s rel →
      exec (.jne rel) s = .next { s with
        status := ⟨.faulted, .branchOutOfRange, s.ip, BitVec.ofInt 32 ((s.ip : Int) + 2 + rel.toInt)⟩ }) ∧
    (s.hasValue .zf = true → s.zf = true → exec (.jne rel) s = .next { s with ip := s.ip + 2 }) ∧
    (s.hasValue .zf = false →
      exec (.jne rel) s = .next { s with status := ⟨.faulted, .uninitialisedRead, s.ip, 0x30000⟩ })

/-- Under `BRANCH_EXEC_POLICY = fault` each of the 19 jump/loop instructions other than `jne` raises
`UNIMPLEMENTED_BRANCH` with its opcode byte, and writes nothing else (43_jumps_loops.md R116, decision D13). -/
def Obligations.OtherBranchesFaultByDefault : Prop :=
  ∀ p ∈ flaglessBranches ++ decidableBranches, ∀ (rel : Byte) (s : State), s.cfg.branchExec = .fault →
    exec (p.1 rel) s = .next { s with status := ⟨.faulted, .unimplementedBranch, s.ip, p.2.setWidth 32⟩ }

/-- Under `BRANCH_EXEC_POLICY = fallthrough` each of the 19 jump/loop instructions other than `jne` goes on to the next
instruction, and nothing else changes (43_jumps_loops.md R116, decision D13). -/
def Obligations.OtherBranchesFallThrough : Prop :=
  ∀ p ∈ flaglessBranches ++ decidableBranches, ∀ (rel : Byte) (s : State), s.cfg.branchExec = .fallthrough →
    exec (p.1 rel) s = .next { s with ip := s.ip + 2 }

/-- Under `BRANCH_EXEC_POLICY = arch8086` the 12 jumps whose condition needs a flag the block lacks raise
`UNIMPLEMENTED_BRANCH` (43_jumps_loops.md R116 to R120, R122, R123, R126 to R131, decision D13). -/
def Obligations.FlaglessBranchesFaultUnderArch : Prop :=
  ∀ p ∈ flaglessBranches, ∀ (rel : Byte) (s : State), s.cfg.branchExec = .arch8086 →
    exec (p.1 rel) s = .next { s with status := ⟨.faulted, .unimplementedBranch, s.ip, p.2.setWidth 32⟩ }

/-- Under `arch8086`, `je` is taken iff ZF = 1, `js` iff SF = 1, `jns` iff SF = 0, `jcxz` iff cx = 0; nothing but `ip`
is written (43_jumps_loops.md R121, R124, R125, R132, decision D13). -/
def Obligations.FlagBranchesUnderArch : Prop :=
  ∀ (rel : Byte) (s : State), s.cfg.branchExec = .arch8086 →
    (s.hasValue .zf = true → BranchOutcome (exec (.je rel) s) s rel s.zf s) ∧
    (s.hasValue .sf = true → BranchOutcome (exec (.js rel) s) s rel s.sf s) ∧
    (s.hasValue .sf = true → BranchOutcome (exec (.jns rel) s) s rel (!s.sf) s) ∧
    (s.hasValue (.regLo .c) = true → s.hasValue (.regHi .c) = true →
      BranchOutcome (exec (.jcxz rel) s) s rel (decide (s.regRead .cx = 0)) s)

/-- Under `arch8086`, `loop`, `loopz` and `loopnz` decrement cx modulo 2^16 and are taken iff the new value is not 0
(and ZF = 1, ZF = 0); cx is decremented whether or not the branch is taken, but not when the target is out of range;
no flag is written (43_jumps_loops.md R133 to R135, decision D13). -/
def Obligations.LoopsUnderArch : Prop :=
  ∀ (rel : Byte) (s : State), s.cfg.branchExec = .arch8086 →
    s.hasValue (.regLo .c) = true → s.hasValue (.regHi .c) = true →
    BranchOutcome (exec (.loop rel) s) s rel (decide (s.regRead .cx ≠ 1)) (s.regWrite .cx (s.regRead .cx - 1)) ∧
    (s.hasValue .zf = true →
      BranchOutcome (exec (.loopz rel) s) s rel (decide (s.regRead .cx ≠ 1 ∧ s.zf = true))
        (s.regWrite .cx (s.regRead .cx - 1)) ∧
      BranchOutcome (exec (.loopnz rel) s) s rel (decide (s.regRead .cx ≠ 1 ∧ s.zf = false))
        (s.regWrite .cx (s.regRead .cx - 1)))

/-- Under `arch8086`, a jump or loop whose tested flag or cx byte has no value raises `UNINITIALISED_READ` naming it,
cx before ZF for `loopz` and `loopnz`, and writes nothing else (43_jumps_loops.md R114, 60_exceptions.md R142,
decisions D13, D20, log 6). -/
def Obligations.BranchReadOfNoValueFaults : Prop :=
  ∀ (rel : Byte) (s : State), s.cfg.branchExec = .arch8086 →
    (s.hasValue .zf = false → exec (.je rel) s = .next (faultState s .uninitialisedRead 0x30000)) ∧
    (s.hasValue .sf = false →
      exec (.js rel) s = .next (faultState s .uninitialisedRead 0x30001) ∧
      exec (.jns rel) s = .next (faultState s .uninitialisedRead 0x30001)) ∧
    (∀ i ∈ [Instr.jcxz rel, .loop rel, .loopz rel, .loopnz rel],
      (s.hasValue (.regLo .c) = false → exec i s = .next (faultState s .uninitialisedRead 0x20004)) ∧
      (s.hasValue (.regLo .c) = true → s.hasValue (.regHi .c) = false →
        exec i s = .next (faultState s .uninitialisedRead 0x20005))) ∧
    (∀ i ∈ [Instr.loopz rel, .loopnz rel],
      s.hasValue (.regLo .c) = true → s.hasValue (.regHi .c) = true → s.hasValue .zf = false →
        exec i s = .next (faultState s .uninitialisedRead 0x30000))

/-! ### The decoded-instruction record and operand access -/

/-- The record of every form at address a: its size, its operation, its destination and source, and its width.
Format RM: with d = 0 the r/m operand is the destination, with d = 1 the register is. Immediate to register/memory: the
r/m operand is the destination. Immediate to register: the register is. Accumulator forms: `al` at W = 8, `ax` at
W = 16, and the direct address. Jumps: `Rel` alone, and `wide = 0`. An r/m operand is the register, or the memory operand
with displacement 0, the sign-extended byte, or the word; an immediate is held zero-extended, a relative displacement
sign-extended (30_encoding.md R52, R53, R57 to R60, R63 to R66; decisions D14, D16, D29). -/
def Obligations.RecordOfEachForm : Prop :=
  (∀ p ∈ rmRegForms, ∀ (w : Width) (reg : Reg) (rm : RM) (a : Nat),
    record (p.1 .toRm w reg rm) a = ⟨a, 2 + rm.dispBytes, p.2, RM.operand rm, .reg reg, w⟩ ∧
    record (p.1 .toReg w reg rm) a = ⟨a, 2 + rm.dispBytes, p.2, .reg reg, RM.operand rm, w⟩) ∧
  (∀ (enc : MovImmEnc) (w : Width) (rm : RM) (imm : Word) (a : Nat), ∃ v : DWord, v.toNat = imm.toNat ∧
    record (.movImmRm enc w rm imm) a
      = ⟨a, 2 + rm.dispBytes + immBytes enc.s w, .mov, RM.operand rm, .imm v, w⟩) ∧
  (∀ p ∈ grp1Forms, ∀ (sx : Bool) (w : Width) (rm : RM) (imm : Word) (a : Nat), ∃ v : DWord, v.toNat = imm.toNat ∧
    record (p.1 sx w rm imm) a = ⟨a, 2 + rm.dispBytes + immBytes sx w, p.2, RM.operand rm, .imm v, w⟩) ∧
  (∀ (w : Width) (reg : Reg) (imm : Word) (a : Nat), ∃ v : DWord, v.toNat = imm.toNat ∧
    record (.movImmReg w reg imm) a = ⟨a, 1 + w.bytes, .mov, .reg reg, .imm v, w⟩) ∧
  (∀ p ∈ immAccForms, ∀ (imm : Word) (a : Nat), ∃ v : DWord, v.toNat = imm.toNat ∧
    record (p.1 .byte imm) a = ⟨a, 2, p.2, .reg .al, .imm v, .byte⟩ ∧
    record (p.1 .word imm) a = ⟨a, 3, p.2, .reg .ax, .imm v, .word⟩) ∧
  (∀ (addr : Word) (a : Nat),
    record (.movMemAcc .byte addr) a = ⟨a, 3, .mov, .reg .al, .mem .direct addr, .byte⟩ ∧
    record (.movMemAcc .word addr) a = ⟨a, 3, .mov, .reg .ax, .mem .direct addr, .word⟩ ∧
    record (.movAccMem .byte addr) a = ⟨a, 3, .mov, .mem .direct addr, .reg .al, .byte⟩ ∧
    record (.movAccMem .word addr) a = ⟨a, 3, .mov, .mem .direct addr, .reg .ax, .word⟩) ∧
  (∀ p ∈ jumpForms, ∀ (rel : Byte) (a : Nat), ∃ r : DWord, r.toInt = rel.toInt ∧
    record (p.1 rel) a = ⟨a, 2, p.2, .rel r, .none, .byte⟩) ∧
  (∀ r, RM.operand (.reg r) = .reg r) ∧
  (∀ addr, RM.operand (.direct addr) = .mem .direct addr) ∧
  (∀ b, RM.operand (.base b) = .mem (.base b) 0) ∧
  (∀ b (d : Byte), ∃ disp : Word, disp.toInt = d.toInt ∧ RM.operand (.disp8 b d) = .mem (.base b) disp) ∧
  (∀ b d, RM.operand (.disp16 b d) = .mem (.base b) d)

/-- `ReadOp`: a register operand reads its view, a memory operand the W/8 bytes at its effective address, an immediate
its low W bits; `Rel` and `None` raise `UNSUPPORTED_OPERAND` with the operand's index, and nothing else is written
(40_sequencer.md R89, log 21; no decoded instruction gets there). The fault comes before any other of the instruction:
for the destination that is decision D20 (60_exceptions.md R142); for the source it is the model's own choice and not
the spec's, since R142 does not place the check on the source's kind (log 6, DEDUCED). -/
def Obligations.ReadOpOfEachKind : Prop :=
  ∀ s : State,
    (∀ w r, s.readOp w (.reg r) = s.regRead r) ∧
    (∀ w sel d, s.readOp w (.mem sel d) = s.memRead w (s.ea sel d)) ∧
    (∀ v : DWord, (s.readOp .byte (.imm v)).toNat = v.toNat % 256 ∧
      (s.readOp .word (.imm v)).toNat = v.toNat % 65536) ∧
    ∀ I : Instruction,
      (I.src.readable = false → I.dst.writable = true → ∀ body ∈ [execMov, execAdd, execSub],
        body I s = .next (faultState s .unsupportedOperand 1)) ∧
      (I.src.readable = false → I.dst.readable = true →
        execCmp I s = .next (faultState s .unsupportedOperand 1)) ∧
      (I.dst.readable = false → execCmp I s = .next (faultState s .unsupportedOperand 0))

/-- `WriteOp`: a register operand is written through its view, a memory operand at its effective address; any other
destination raises `UNSUPPORTED_OPERAND` with information word 0, before any other fault of the instruction, and nothing
else is written; and no instruction of `Instr` raises `UNSUPPORTED_OPERAND` (40_sequencer.md R90, which the spec derives
for the last part; decision D20, log 21). -/
def Obligations.WriteOpOfEachKind : Prop :=
  (∀ (s : State) (w : Width) (v : Word),
    (∀ r, s.writeOp w (.reg r) v = s.regWrite r v) ∧
    (∀ sel d, s.writeOp w (.mem sel d) v = s.memWrite w (s.ea sel d) v)) ∧
  (∀ (I : Instruction) (s : State), I.dst.writable = false → ∀ body ∈ [execMov, execAdd, execSub],
    body I s = .next (faultState s .unsupportedOperand 0)) ∧
  ∀ (i : Instr) (s t : State), exec i s = .next t → s.status.code ≠ .unsupportedOperand →
    t.status.code ≠ .unsupportedOperand
end

