-- ==== Sys2Proof/Laws/Bits.lean ====
section
/-! SUPPORT. Bytes of a word, and the field tables and opcode bytes read back what the encoder writes. -/

namespace Sys2Proof

/-! ### Bytes of a word -/

/-- The bits of `hi:lo` (00_scope.md R9). -/
theorem joinBytes_getLsbD (h l : Byte) (j : Nat) :
    (joinBytes h l).getLsbD j = if j < 8 then l.getLsbD j else h.getLsbD (j - 8) :=
  BitVec.getLsbD_append

@[simp] theorem loByte_joinBytes (h l : Byte) : loByte (joinBytes h l) = l := by
  apply BitVec.eq_of_getLsbD_eq
  intro j hj
  simp [loByte, joinBytes_getLsbD, hj]

@[simp] theorem hiByte_joinBytes (h l : Byte) : hiByte (joinBytes h l) = h := by
  apply BitVec.eq_of_getLsbD_eq
  intro j hj
  simp [hiByte, joinBytes_getLsbD, hj]

@[simp] theorem joinBytes_hi_lo (v : Word) : joinBytes (hiByte v) (loByte v) = v := by
  apply BitVec.eq_of_getLsbD_eq
  intro j hj
  rw [joinBytes_getLsbD]
  by_cases h8 : j < 8
  · simp [loByte, h8]
  · have h1 : j - 8 < 8 := by omega
    have h2 : 8 + (j - 8) = j := by omega
    simp [hiByte, h8, h1, h2]

@[simp] theorem loByte_zext16 (b : Byte) : loByte (zext16 b) = b := by
  apply BitVec.eq_of_getLsbD_eq
  intro j hj
  have : j < 16 := by omega
  simp [loByte, zext16, hj, this]

@[simp] theorem hiByte_zext16 (b : Byte) : hiByte (zext16 b) = 0 := by
  apply BitVec.eq_of_getLsbD_eq
  intro j hj
  simp [hiByte, zext16]

@[simp] theorem loByte_sext16 (b : Byte) : loByte (sext16 b) = b := by
  revert b; decide

/-! ### Field tables (30_encoding.md R56, R57) -/

/-- REGTAB read back: a view of width w is the entry of its code. -/
theorem regTab_code (r : Reg) : regTab r.code r.width = r := by cases r <;> rfl

@[simp] theorem regTab_width (c : BitVec 3) (w : Width) : (regTab c w).width = w := by
  revert c; cases w <;> decide

@[simp] theorem code_regTab (c : BitVec 3) (w : Width) : (regTab c w).code = c := by
  revert c; cases w <;> decide

@[simp] theorem eaTab_code (b : Base) : eaTab b.code = b := by cases b <;> rfl

@[simp] theorem code_eaTab (c : BitVec 3) : (eaTab c).code = c := by revert c; decide

theorem Base.code_eq_bp (b : Base) : b.code = 0b110 ↔ b = .bp := by cases b <;> decide

/-! ### The ModRM byte -/

@[simp] theorem modField_modrm (m : BitVec 2) (g r : BitVec 3) : modField (modrm m g r) = m := by
  revert m g r; decide

@[simp] theorem regField_modrm (m : BitVec 2) (g r : BitVec 3) : regField (modrm m g r) = g := by
  revert m g r; decide

@[simp] theorem rmField_modrm (m : BitVec 2) (g r : BitVec 3) : rmField (modrm m g r) = r := by
  revert m g r; decide

/-- A byte is the ModRM byte of its fields. -/
theorem modrm_fields (b : Byte) : modrm (modField b) (regField b) (rmField b) = b := by
  revert b; decide

/-! ### Lengths (30_encoding.md R66) -/

@[simp] theorem RM.encode_length (g : BitVec 3) (rm : RM) : (rm.encode g).length = 1 + rm.dispBytes := by
  cases rm <;> rfl

@[simp] theorem encodeImm_length (s : Bool) (v : Word) (w : Width) :
    (encodeImm s v w).length = immBytes s w := by
  cases w <;> cases s <;> rfl

theorem RM.dispBytes_le (rm : RM) : rm.dispBytes ≤ 2 := by cases rm <;> simp [RM.dispBytes]

theorem immBytes_pos (s : Bool) (w : Width) : 1 ≤ immBytes s w := by cases w <;> cases s <;> decide

theorem immBytes_le (s : Bool) (w : Width) : immBytes s w ≤ 2 := by cases w <;> cases s <;> decide

end Sys2Proof
end

