-- ==== Sys2Proof/Laws/PerInstr.lean ====
section
/-! SUPPORT. Statements about every instruction, one lemma per constructor. -/

namespace Sys2Proof.Laws

/-- `size` is the number of encoded bytes, and lies in 2..6 (30_encoding.md R66). -/
def EncodedSize.Statement (i : Instr) : Prop := (encode i).length = i.size ∧ 2 ≤ i.size ∧ i.size ≤ 6

/-- The statement for every instruction; the lemmas below are its cases, one for each constructor. -/
theorem EncodedSize.holds (i : Instr) : EncodedSize.Statement i := by
  cases i
  case movRmReg _ _ _ rm | addRmReg _ _ _ rm | subRmReg _ _ _ rm | cmpRmReg _ _ _ rm =>
    have := rm.dispBytes_le
    simp only [Statement, encode, encodeRmReg, Instr.size, List.length_cons, RM.encode_length]
    omega
  case movImmRm enc w rm _ =>
    have := rm.dispBytes_le
    have := immBytes_pos enc.s w
    have := immBytes_le enc.s w
    cases enc <;>
      simp only [Statement, encode, encodeGrp1, Instr.size, List.length_cons, List.length_append, RM.encode_length,
        encodeImm_length, MovImmEnc.s] at * <;> omega
  case addImmRm s w rm _ | subImmRm s w rm _ | cmpImmRm s w rm _ =>
    have := rm.dispBytes_le
    have := immBytes_pos s w
    have := immBytes_le s w
    simp only [Statement, encode, encodeGrp1, Instr.size, List.length_cons, List.length_append, RM.encode_length,
      encodeImm_length]
    omega
  case movImmReg w _ _ | addImmAcc w _ | subImmAcc w _ | cmpImmAcc w _ =>
    have := immBytes_pos false w
    have := immBytes_le false w
    simp only [Statement, encode, Instr.size, List.length_cons, encodeImm_length]
    omega
  all_goals simp [Statement, encode, wordBytes, Instr.size]

theorem EncodedSize.movRmReg (d : Dir) (w : Width) (reg : Reg) (rm : RM) : EncodedSize.Statement (.movRmReg d w reg rm) :=
  EncodedSize.holds _

theorem EncodedSize.movImmRm (enc : MovImmEnc) (w : Width) (rm : RM) (imm : Word) : EncodedSize.Statement (.movImmRm enc w rm imm) :=
  EncodedSize.holds _

theorem EncodedSize.movImmReg (w : Width) (reg : Reg) (imm : Word) : EncodedSize.Statement (.movImmReg w reg imm) :=
  EncodedSize.holds _

theorem EncodedSize.movMemAcc (w : Width) (addr : Word) : EncodedSize.Statement (.movMemAcc w addr) :=
  EncodedSize.holds _

theorem EncodedSize.movAccMem (w : Width) (addr : Word) : EncodedSize.Statement (.movAccMem w addr) :=
  EncodedSize.holds _

theorem EncodedSize.addRmReg (d : Dir) (w : Width) (reg : Reg) (rm : RM) : EncodedSize.Statement (.addRmReg d w reg rm) :=
  EncodedSize.holds _

theorem EncodedSize.addImmRm (s : Bool) (w : Width) (rm : RM) (imm : Word) : EncodedSize.Statement (.addImmRm s w rm imm) :=
  EncodedSize.holds _

theorem EncodedSize.addImmAcc (w : Width) (imm : Word) : EncodedSize.Statement (.addImmAcc w imm) :=
  EncodedSize.holds _

theorem EncodedSize.subRmReg (d : Dir) (w : Width) (reg : Reg) (rm : RM) : EncodedSize.Statement (.subRmReg d w reg rm) :=
  EncodedSize.holds _

theorem EncodedSize.subImmRm (s : Bool) (w : Width) (rm : RM) (imm : Word) : EncodedSize.Statement (.subImmRm s w rm imm) :=
  EncodedSize.holds _

theorem EncodedSize.subImmAcc (w : Width) (imm : Word) : EncodedSize.Statement (.subImmAcc w imm) :=
  EncodedSize.holds _

theorem EncodedSize.cmpRmReg (d : Dir) (w : Width) (reg : Reg) (rm : RM) : EncodedSize.Statement (.cmpRmReg d w reg rm) :=
  EncodedSize.holds _

theorem EncodedSize.cmpImmRm (s : Bool) (w : Width) (rm : RM) (imm : Word) : EncodedSize.Statement (.cmpImmRm s w rm imm) :=
  EncodedSize.holds _

theorem EncodedSize.cmpImmAcc (w : Width) (imm : Word) : EncodedSize.Statement (.cmpImmAcc w imm) :=
  EncodedSize.holds _

theorem EncodedSize.jo (rel : Byte) : EncodedSize.Statement (.jo rel) :=
  EncodedSize.holds _

theorem EncodedSize.jno (rel : Byte) : EncodedSize.Statement (.jno rel) :=
  EncodedSize.holds _

theorem EncodedSize.jb (rel : Byte) : EncodedSize.Statement (.jb rel) :=
  EncodedSize.holds _

theorem EncodedSize.jnb (rel : Byte) : EncodedSize.Statement (.jnb rel) :=
  EncodedSize.holds _

theorem EncodedSize.je (rel : Byte) : EncodedSize.Statement (.je rel) :=
  EncodedSize.holds _

theorem EncodedSize.jne (rel : Byte) : EncodedSize.Statement (.jne rel) :=
  EncodedSize.holds _

theorem EncodedSize.jbe (rel : Byte) : EncodedSize.Statement (.jbe rel) :=
  EncodedSize.holds _

theorem EncodedSize.jnbe (rel : Byte) : EncodedSize.Statement (.jnbe rel) :=
  EncodedSize.holds _

theorem EncodedSize.js (rel : Byte) : EncodedSize.Statement (.js rel) :=
  EncodedSize.holds _

theorem EncodedSize.jns (rel : Byte) : EncodedSize.Statement (.jns rel) :=
  EncodedSize.holds _

theorem EncodedSize.jp (rel : Byte) : EncodedSize.Statement (.jp rel) :=
  EncodedSize.holds _

theorem EncodedSize.jnp (rel : Byte) : EncodedSize.Statement (.jnp rel) :=
  EncodedSize.holds _

theorem EncodedSize.jl (rel : Byte) : EncodedSize.Statement (.jl rel) :=
  EncodedSize.holds _

theorem EncodedSize.jnl (rel : Byte) : EncodedSize.Statement (.jnl rel) :=
  EncodedSize.holds _

theorem EncodedSize.jle (rel : Byte) : EncodedSize.Statement (.jle rel) :=
  EncodedSize.holds _

theorem EncodedSize.jnle (rel : Byte) : EncodedSize.Statement (.jnle rel) :=
  EncodedSize.holds _

theorem EncodedSize.jcxz (rel : Byte) : EncodedSize.Statement (.jcxz rel) :=
  EncodedSize.holds _

theorem EncodedSize.loop (rel : Byte) : EncodedSize.Statement (.loop rel) :=
  EncodedSize.holds _

theorem EncodedSize.loopz (rel : Byte) : EncodedSize.Statement (.loopz rel) :=
  EncodedSize.holds _

theorem EncodedSize.loopnz (rel : Byte) : EncodedSize.Statement (.loopnz rel) :=
  EncodedSize.holds _

end Sys2Proof.Laws
end

