-- ==== Sys2Proof/Laws/Decode.lean ====
section
/-! SUPPORT. What each sub-decoder reads from what the encoder wrote. -/

namespace Sys2Proof

/-- `FetchByte` at the end of a known prefix. -/
theorem fetchByte_append (ip : Nat) (pre : List Byte) (b : Byte) (post : List Byte) :
    fetchByte ip (pre ++ b :: post) pre.length = .ok b := by
  simp [fetchByte]

/-- Two bytes at the end of a known prefix make their word. -/
theorem fetchWord_append (ip : Nat) (pre : List Byte) (v : Word) (post : List Byte) :
    fetchWord ip (pre ++ (wordBytes v ++ post)) pre.length = .ok v := by
  have h1 := fetchByte_append ip pre (loByte v) (hiByte v :: post)
  have h2 := fetchByte_append ip (pre ++ [loByte v]) (hiByte v) post
  simp only [List.append_assoc, List.singleton_append, List.length_append, List.length_singleton] at h2
  simp only [fetchWord, wordBytes, List.cons_append, List.nil_append, h1, h2, bind, Except.bind, pure, Except.pure,
    joinBytes_hi_lo]

/-- A byte the program does not reach is `TRUNCATED` (30_encoding.md R50). -/
theorem fetchByte_past (ip : Nat) (bs : List Byte) (k : Nat) (h : bs.length ≤ k) :
    fetchByte ip bs k = .error ⟨.truncated, BitVec.ofNat 32 (ip + k)⟩ := by
  simp [fetchByte, List.getElem?_eq_none h]

/-- A byte that was fetched lies before n. -/
theorem fetchByte_ok (ip : Nat) (bs : List Byte) (k : Nat) (b : Byte) (h : fetchByte ip bs k = .ok b) :
    bs[k]? = some b := by
  unfold fetchByte at h
  cases hb : bs[k]? <;> simp_all

/-- The ModRM byte of an encoded r/m operand. -/
def RM.modrmByte (g : BitVec 3) : RM → Byte
  | .reg r => modrm 0b11 g r.code
  | .direct _ => modrm 0b00 g 0b110
  | .base b => modrm 0b00 g b.code
  | .disp8 b _ => modrm 0b01 g b.code
  | .disp16 b _ => modrm 0b10 g b.code

theorem RM.encode_cons (g : BitVec 3) (rm : RM) : ∃ ds, rm.encode g = rm.modrmByte g :: ds := by
  cases rm <;> exact ⟨_, rfl⟩

@[simp] theorem RM.regField_modrmByte (g : BitVec 3) (rm : RM) : regField (rm.modrmByte g) = g := by
  cases rm <;> simp [RM.modrmByte]

theorem fetch_modrm (ip : Nat) (b0 : Byte) (g : BitVec 3) (rm : RM) (post : List Byte) :
    fetchByte ip (b0 :: (rm.encode g ++ post)) 1 = .ok (rm.modrmByte g) := by
  obtain ⟨ds, e⟩ := rm.encode_cons g
  rw [e]
  rfl

/-- `DecModRM` reads back a well-formed r/m operand (30_encoding.md R57, R68). -/
theorem decRM_encode (ip : Nat) (b0 : Byte) (g : BitVec 3) (w : Width) (rm : RM) (post : List Byte)
    (h : rm.wf w = true) : decRM ip (b0 :: (rm.encode g ++ post)) (rm.modrmByte g) w = .ok rm := by
  cases rm with
  | reg r =>
    have hw : r.width = w := by simpa [RM.wf] using h
    simp [decRM, RM.modrmByte, pure, Except.pure, ← hw, regTab_code]
  | direct a =>
    have := fetchWord_append ip [b0, modrm 0b00 g 0b110] a post
    simp only [BitVec.ofNat_eq_ofNat, List.cons_append, List.nil_append, List.length_cons, List.length_nil, Nat.zero_add,
      Nat.reduceAdd] at this
    simp [decRM, RM.modrmByte, RM.encode, this, bind, Except.bind, pure, Except.pure]
  | base b =>
    have hb : b ≠ .bp := by simpa [RM.wf] using h
    have : ¬ b.code = 6#3 := fun e => hb ((Base.code_eq_bp b).1 e)
    simp [decRM, RM.modrmByte, this, pure, Except.pure]
  | disp8 b d =>
    have := fetchByte_append ip [b0, modrm 0b01 g b.code] d post
    simp only [BitVec.ofNat_eq_ofNat, List.cons_append, List.nil_append, List.length_cons, List.length_nil, Nat.zero_add,
      Nat.reduceAdd] at this
    simp [decRM, RM.modrmByte, RM.encode, this, bind, Except.bind, pure, Except.pure]
  | disp16 b d =>
    have := fetchWord_append ip [b0, modrm 0b10 g b.code] d post
    simp only [BitVec.ofNat_eq_ofNat, List.cons_append, List.nil_append, List.length_cons, List.length_nil, Nat.zero_add,
      Nat.reduceAdd] at this
    simp [decRM, RM.modrmByte, RM.encode, this, bind, Except.bind, pure, Except.pure]

/-- `DecImm` reads back a well-formed immediate (30_encoding.md R61). -/
theorem decImm_encode (ip : Nat) (pre : List Byte) (s : Bool) (w : Width) (imm : Word) (post : List Byte)
    (h : immWf s imm w = true) : decImm ip (pre ++ (encodeImm s imm w ++ post)) pre.length s w = .ok imm := by
  cases w with
  | byte =>
    have he : imm = zext16 (loByte imm) := by simpa [immWf] using h
    have := fetchByte_append ip pre (loByte imm) post
    simp only [decImm, encodeImm, List.cons_append, List.nil_append, this, bind, Except.bind, pure, Except.pure]
    rw [← he]
  | word =>
    cases s with
    | false =>
      have := fetchWord_append ip pre imm post
      simpa [decImm, encodeImm] using this
    | true =>
      have he : imm = sext16 (loByte imm) := by simpa [immWf] using h
      have := fetchByte_append ip pre (loByte imm) post
      simp only [decImm, encodeImm, if_true, List.cons_append, List.nil_append, this, bind, Except.bind, pure,
        Except.pure]
      rw [← he]

/-- The immediate of a ModRM form is read after the displacement bytes (30_encoding.md R49, D25). -/
theorem decImm_after_rm (ip : Nat) (b0 : Byte) (g : BitVec 3) (rm : RM) (s : Bool) (w : Width) (imm : Word)
    (post : List Byte) (h : immWf s imm w = true) :
    decImm ip (b0 :: (rm.encode g ++ (encodeImm s imm w ++ post))) (2 + rm.dispBytes) s w = .ok imm := by
  have := decImm_encode ip (b0 :: rm.encode g) s w imm post h
  have hl : (b0 :: rm.encode g).length = 2 + rm.dispBytes := by
    simp only [List.length_cons, RM.encode_length]
    omega
  rwa [hl, List.cons_append] at this

end Sys2Proof
end

