-- ==== Sys2Proof/Laws/State.lean ====
section
/-! SUPPORT. One lemma per field per update of State, and the derived reads each update leaves alone. -/

namespace Sys2Proof.Machine

variable (s : State)

@[simp] theorem State.setCell_cfg (k : Cell) (v : Word) (m : ByteMarks) : (s.setCell k v m).cfg = s.cfg := rfl
@[simp] theorem State.setCell_regs (k : Cell) (v : Word) (m : ByteMarks) : (s.setCell k v m).regs = s.regs.set k v := rfl
@[simp] theorem State.setCell_known (k : Cell) (v : Word) (m : ByteMarks) : (s.setCell k v m).known = s.known.set k m := rfl
@[simp] theorem State.setCell_zf (k : Cell) (v : Word) (m : ByteMarks) : (s.setCell k v m).zf = s.zf := rfl
@[simp] theorem State.setCell_sf (k : Cell) (v : Word) (m : ByteMarks) : (s.setCell k v m).sf = s.sf := rfl
@[simp] theorem State.setCell_zfKnown (k : Cell) (v : Word) (m : ByteMarks) : (s.setCell k v m).zfKnown = s.zfKnown := rfl
@[simp] theorem State.setCell_sfKnown (k : Cell) (v : Word) (m : ByteMarks) : (s.setCell k v m).sfKnown = s.sfKnown := rfl
@[simp] theorem State.setCell_ip (k : Cell) (v : Word) (m : ByteMarks) : (s.setCell k v m).ip = s.ip := rfl
@[simp] theorem State.setCell_status (k : Cell) (v : Word) (m : ByteMarks) : (s.setCell k v m).status = s.status := rfl
@[simp] theorem State.setCell_pb (k : Cell) (v : Word) (m : ByteMarks) : (s.setCell k v m).pb = s.pb := rfl
@[simp] theorem State.setCell_n (k : Cell) (v : Word) (m : ByteMarks) : (s.setCell k v m).n = s.n := rfl
@[simp] theorem State.setCell_mem (k : Cell) (v : Word) (m : ByteMarks) : (s.setCell k v m).mem = s.mem := rfl
@[simp] theorem State.setCell_mode (k : Cell) (v : Word) (m : ByteMarks) : (s.setCell k v m).mode = s.mode := rfl
@[simp] theorem State.setCell_out (k : Cell) (v : Word) (m : ByteMarks) : (s.setCell k v m).out = s.out := rfl
@[simp] theorem State.setCell_dataByte (k : Cell) (v : Word) (m : ByteMarks) (b : Nat) : (s.setCell k v m).dataByte b = s.dataByte b := rfl
@[simp] theorem State.setCell_pbByte (k : Cell) (v : Word) (m : ByteMarks) (b : Nat) : (s.setCell k v m).pbByte b = s.pbByte b := rfl

@[simp] theorem State.writeCell_cfg (k : Cell) (v : Word) : (s.writeCell k v).cfg = s.cfg := rfl
@[simp] theorem State.writeCell_regs (k : Cell) (v : Word) : (s.writeCell k v).regs = s.regs.set k v := rfl
@[simp] theorem State.writeCell_known (k : Cell) (v : Word) : (s.writeCell k v).known = s.known.set k ⟨true, true⟩ := rfl
@[simp] theorem State.writeCell_zf (k : Cell) (v : Word) : (s.writeCell k v).zf = s.zf := rfl
@[simp] theorem State.writeCell_sf (k : Cell) (v : Word) : (s.writeCell k v).sf = s.sf := rfl
@[simp] theorem State.writeCell_zfKnown (k : Cell) (v : Word) : (s.writeCell k v).zfKnown = s.zfKnown := rfl
@[simp] theorem State.writeCell_sfKnown (k : Cell) (v : Word) : (s.writeCell k v).sfKnown = s.sfKnown := rfl
@[simp] theorem State.writeCell_ip (k : Cell) (v : Word) : (s.writeCell k v).ip = s.ip := rfl
@[simp] theorem State.writeCell_status (k : Cell) (v : Word) : (s.writeCell k v).status = s.status := rfl
@[simp] theorem State.writeCell_pb (k : Cell) (v : Word) : (s.writeCell k v).pb = s.pb := rfl
@[simp] theorem State.writeCell_n (k : Cell) (v : Word) : (s.writeCell k v).n = s.n := rfl
@[simp] theorem State.writeCell_mem (k : Cell) (v : Word) : (s.writeCell k v).mem = s.mem := rfl
@[simp] theorem State.writeCell_mode (k : Cell) (v : Word) : (s.writeCell k v).mode = s.mode := rfl
@[simp] theorem State.writeCell_out (k : Cell) (v : Word) : (s.writeCell k v).out = s.out := rfl
@[simp] theorem State.writeCell_dataByte (k : Cell) (v : Word) (b : Nat) : (s.writeCell k v).dataByte b = s.dataByte b := rfl
@[simp] theorem State.writeCell_pbByte (k : Cell) (v : Word) (b : Nat) : (s.writeCell k v).pbByte b = s.pbByte b := rfl

@[simp] theorem State.setMemByte_cfg (a : Nat) (v : Byte) : (s.setMemByte a v).cfg = s.cfg := rfl
@[simp] theorem State.setMemByte_regs (a : Nat) (v : Byte) : (s.setMemByte a v).regs = s.regs := rfl
@[simp] theorem State.setMemByte_known (a : Nat) (v : Byte) : (s.setMemByte a v).known = s.known := rfl
@[simp] theorem State.setMemByte_zf (a : Nat) (v : Byte) : (s.setMemByte a v).zf = s.zf := rfl
@[simp] theorem State.setMemByte_sf (a : Nat) (v : Byte) : (s.setMemByte a v).sf = s.sf := rfl
@[simp] theorem State.setMemByte_zfKnown (a : Nat) (v : Byte) : (s.setMemByte a v).zfKnown = s.zfKnown := rfl
@[simp] theorem State.setMemByte_sfKnown (a : Nat) (v : Byte) : (s.setMemByte a v).sfKnown = s.sfKnown := rfl
@[simp] theorem State.setMemByte_ip (a : Nat) (v : Byte) : (s.setMemByte a v).ip = s.ip := rfl
@[simp] theorem State.setMemByte_status (a : Nat) (v : Byte) : (s.setMemByte a v).status = s.status := rfl
@[simp] theorem State.setMemByte_pb (a : Nat) (v : Byte) : (s.setMemByte a v).pb = s.pb := rfl
@[simp] theorem State.setMemByte_n (a : Nat) (v : Byte) : (s.setMemByte a v).n = s.n := rfl
@[simp] theorem State.setMemByte_mem (a : Nat) (v : Byte) : (s.setMemByte a v).mem = Memory.write s.cfg.resetPolicy s.mem a v := rfl
@[simp] theorem State.setMemByte_mode (a : Nat) (v : Byte) : (s.setMemByte a v).mode = s.mode := rfl
@[simp] theorem State.setMemByte_out (a : Nat) (v : Byte) : (s.setMemByte a v).out = s.out := rfl
@[simp] theorem State.setMemByte_cell (a : Nat) (v : Byte) (j : Cell) : (s.setMemByte a v).cell j = s.cell j := rfl
@[simp] theorem State.setMemByte_pbByte (a : Nat) (v : Byte) (b : Nat) : (s.setMemByte a v).pbByte b = s.pbByte b := rfl

@[simp] theorem State.setFlags_cfg (z f : Bool) : (s.setFlags z f).cfg = s.cfg := rfl
@[simp] theorem State.setFlags_regs (z f : Bool) : (s.setFlags z f).regs = s.regs := rfl
@[simp] theorem State.setFlags_known (z f : Bool) : (s.setFlags z f).known = s.known := rfl
@[simp] theorem State.setFlags_zf (z f : Bool) : (s.setFlags z f).zf = z := rfl
@[simp] theorem State.setFlags_sf (z f : Bool) : (s.setFlags z f).sf = f := rfl
@[simp] theorem State.setFlags_zfKnown (z f : Bool) : (s.setFlags z f).zfKnown = true := rfl
@[simp] theorem State.setFlags_sfKnown (z f : Bool) : (s.setFlags z f).sfKnown = true := rfl
@[simp] theorem State.setFlags_ip (z f : Bool) : (s.setFlags z f).ip = s.ip := rfl
@[simp] theorem State.setFlags_status (z f : Bool) : (s.setFlags z f).status = s.status := rfl
@[simp] theorem State.setFlags_pb (z f : Bool) : (s.setFlags z f).pb = s.pb := rfl
@[simp] theorem State.setFlags_n (z f : Bool) : (s.setFlags z f).n = s.n := rfl
@[simp] theorem State.setFlags_mem (z f : Bool) : (s.setFlags z f).mem = s.mem := rfl
@[simp] theorem State.setFlags_mode (z f : Bool) : (s.setFlags z f).mode = s.mode := rfl
@[simp] theorem State.setFlags_out (z f : Bool) : (s.setFlags z f).out = s.out := rfl
@[simp] theorem State.setFlags_cell (z f : Bool) (j : Cell) : (s.setFlags z f).cell j = s.cell j := rfl
@[simp] theorem State.setFlags_dataByte (z f : Bool) (b : Nat) : (s.setFlags z f).dataByte b = s.dataByte b := rfl
@[simp] theorem State.setFlags_pbByte (z f : Bool) (b : Nat) : (s.setFlags z f).pbByte b = s.pbByte b := rfl

@[simp] theorem State.setIp_cfg (j : Nat) : (s.setIp j).cfg = s.cfg := rfl
@[simp] theorem State.setIp_regs (j : Nat) : (s.setIp j).regs = s.regs := rfl
@[simp] theorem State.setIp_known (j : Nat) : (s.setIp j).known = s.known := rfl
@[simp] theorem State.setIp_zf (j : Nat) : (s.setIp j).zf = s.zf := rfl
@[simp] theorem State.setIp_sf (j : Nat) : (s.setIp j).sf = s.sf := rfl
@[simp] theorem State.setIp_zfKnown (j : Nat) : (s.setIp j).zfKnown = s.zfKnown := rfl
@[simp] theorem State.setIp_sfKnown (j : Nat) : (s.setIp j).sfKnown = s.sfKnown := rfl
@[simp] theorem State.setIp_ip (j : Nat) : (s.setIp j).ip = j := rfl
@[simp] theorem State.setIp_status (j : Nat) : (s.setIp j).status = s.status := rfl
@[simp] theorem State.setIp_pb (j : Nat) : (s.setIp j).pb = s.pb := rfl
@[simp] theorem State.setIp_n (j : Nat) : (s.setIp j).n = s.n := rfl
@[simp] theorem State.setIp_mem (j : Nat) : (s.setIp j).mem = s.mem := rfl
@[simp] theorem State.setIp_mode (j : Nat) : (s.setIp j).mode = s.mode := rfl
@[simp] theorem State.setIp_out (j : Nat) : (s.setIp j).out = s.out := rfl
@[simp] theorem State.setIp_cell (j : Nat) (q : Cell) : (s.setIp j).cell q = s.cell q := rfl
@[simp] theorem State.setIp_dataByte (j : Nat) (b : Nat) : (s.setIp j).dataByte b = s.dataByte b := rfl
@[simp] theorem State.setIp_pbByte (j : Nat) (b : Nat) : (s.setIp j).pbByte b = s.pbByte b := rfl
@[simp] theorem State.setIp_hasValue (j : Nat) (l : Loc) : (s.setIp j).hasValue l = s.hasValue l := by
  cases l <;> rfl

@[simp] theorem State.advance_cfg (j : Nat) : (s.advance j).cfg = s.cfg := rfl
@[simp] theorem State.advance_regs (j : Nat) : (s.advance j).regs = s.regs := rfl
@[simp] theorem State.advance_known (j : Nat) : (s.advance j).known = s.known := rfl
@[simp] theorem State.advance_zf (j : Nat) : (s.advance j).zf = s.zf := rfl
@[simp] theorem State.advance_sf (j : Nat) : (s.advance j).sf = s.sf := rfl
@[simp] theorem State.advance_zfKnown (j : Nat) : (s.advance j).zfKnown = s.zfKnown := rfl
@[simp] theorem State.advance_sfKnown (j : Nat) : (s.advance j).sfKnown = s.sfKnown := rfl
@[simp] theorem State.advance_ip (j : Nat) : (s.advance j).ip = s.ip + j := rfl
@[simp] theorem State.advance_status (j : Nat) : (s.advance j).status = s.status := rfl
@[simp] theorem State.advance_pb (j : Nat) : (s.advance j).pb = s.pb := rfl
@[simp] theorem State.advance_n (j : Nat) : (s.advance j).n = s.n := rfl
@[simp] theorem State.advance_mem (j : Nat) : (s.advance j).mem = s.mem := rfl
@[simp] theorem State.advance_mode (j : Nat) : (s.advance j).mode = s.mode := rfl
@[simp] theorem State.advance_out (j : Nat) : (s.advance j).out = s.out := rfl
@[simp] theorem State.advance_cell (j : Nat) (q : Cell) : (s.advance j).cell q = s.cell q := rfl
@[simp] theorem State.advance_dataByte (j : Nat) (b : Nat) : (s.advance j).dataByte b = s.dataByte b := rfl
@[simp] theorem State.advance_pbByte (j : Nat) (b : Nat) : (s.advance j).pbByte b = s.pbByte b := rfl
@[simp] theorem State.advance_hasValue (j : Nat) (l : Loc) : (s.advance j).hasValue l = s.hasValue l := by
  cases l <;> rfl

@[simp] theorem State.raise_cfg (x : Trap) : (s.raise x).cfg = s.cfg := rfl
@[simp] theorem State.raise_regs (x : Trap) : (s.raise x).regs = s.regs := rfl
@[simp] theorem State.raise_known (x : Trap) : (s.raise x).known = s.known := rfl
@[simp] theorem State.raise_zf (x : Trap) : (s.raise x).zf = s.zf := rfl
@[simp] theorem State.raise_sf (x : Trap) : (s.raise x).sf = s.sf := rfl
@[simp] theorem State.raise_zfKnown (x : Trap) : (s.raise x).zfKnown = s.zfKnown := rfl
@[simp] theorem State.raise_sfKnown (x : Trap) : (s.raise x).sfKnown = s.sfKnown := rfl
@[simp] theorem State.raise_ip (x : Trap) : (s.raise x).ip = s.ip := rfl
@[simp] theorem State.raise_status (x : Trap) : (s.raise x).status = ⟨.faulted, x.code, s.ip, x.info⟩ := rfl
@[simp] theorem State.raise_pb (x : Trap) : (s.raise x).pb = s.pb := rfl
@[simp] theorem State.raise_n (x : Trap) : (s.raise x).n = s.n := rfl
@[simp] theorem State.raise_mem (x : Trap) : (s.raise x).mem = s.mem := rfl
@[simp] theorem State.raise_mode (x : Trap) : (s.raise x).mode = s.mode := rfl
@[simp] theorem State.raise_out (x : Trap) : (s.raise x).out = s.out := rfl
@[simp] theorem State.raise_cell (x : Trap) (j : Cell) : (s.raise x).cell j = s.cell j := rfl
@[simp] theorem State.raise_dataByte (x : Trap) (b : Nat) : (s.raise x).dataByte b = s.dataByte b := rfl
@[simp] theorem State.raise_pbByte (x : Trap) (b : Nat) : (s.raise x).pbByte b = s.pbByte b := rfl
@[simp] theorem State.raise_hasValue (x : Trap) (l : Loc) : (s.raise x).hasValue l = s.hasValue l := by
  cases l <;> rfl

@[simp] theorem State.emit_cfg (r : Record) : (s.emit r).cfg = s.cfg := rfl
@[simp] theorem State.emit_regs (r : Record) : (s.emit r).regs = s.regs := rfl
@[simp] theorem State.emit_known (r : Record) : (s.emit r).known = s.known := rfl
@[simp] theorem State.emit_zf (r : Record) : (s.emit r).zf = s.zf := rfl
@[simp] theorem State.emit_sf (r : Record) : (s.emit r).sf = s.sf := rfl
@[simp] theorem State.emit_zfKnown (r : Record) : (s.emit r).zfKnown = s.zfKnown := rfl
@[simp] theorem State.emit_sfKnown (r : Record) : (s.emit r).sfKnown = s.sfKnown := rfl
@[simp] theorem State.emit_ip (r : Record) : (s.emit r).ip = s.ip := rfl
@[simp] theorem State.emit_status (r : Record) : (s.emit r).status = s.status := rfl
@[simp] theorem State.emit_pb (r : Record) : (s.emit r).pb = s.pb := rfl
@[simp] theorem State.emit_n (r : Record) : (s.emit r).n = s.n := rfl
@[simp] theorem State.emit_mem (r : Record) : (s.emit r).mem = s.mem := rfl
@[simp] theorem State.emit_mode (r : Record) : (s.emit r).mode = s.mode := rfl
@[simp] theorem State.emit_out (r : Record) : (s.emit r).out = s.out ++ [r] := rfl
@[simp] theorem State.emit_cell (r : Record) (j : Cell) : (s.emit r).cell j = s.cell j := rfl
@[simp] theorem State.emit_dataByte (r : Record) (b : Nat) : (s.emit r).dataByte b = s.dataByte b := rfl
@[simp] theorem State.emit_pbByte (r : Record) (b : Nat) : (s.emit r).pbByte b = s.pbByte b := rfl
@[simp] theorem State.emit_hasValue (r : Record) (l : Loc) : (s.emit r).hasValue l = s.hasValue l := by
  cases l <;> rfl

@[simp] theorem State.halt_cfg : (s.halt).cfg = s.cfg := rfl
@[simp] theorem State.halt_regs : (s.halt).regs = s.regs := rfl
@[simp] theorem State.halt_known : (s.halt).known = s.known := rfl
@[simp] theorem State.halt_zf : (s.halt).zf = s.zf := rfl
@[simp] theorem State.halt_sf : (s.halt).sf = s.sf := rfl
@[simp] theorem State.halt_zfKnown : (s.halt).zfKnown = s.zfKnown := rfl
@[simp] theorem State.halt_sfKnown : (s.halt).sfKnown = s.sfKnown := rfl
@[simp] theorem State.halt_ip : (s.halt).ip = s.ip := rfl
@[simp] theorem State.halt_status : (s.halt).status = ⟨.halted, s.status.code, s.status.faultIp, s.status.info⟩ := rfl
@[simp] theorem State.halt_pb : (s.halt).pb = s.pb := rfl
@[simp] theorem State.halt_n : (s.halt).n = s.n := rfl
@[simp] theorem State.halt_mem : (s.halt).mem = s.mem := rfl
@[simp] theorem State.halt_mode : (s.halt).mode = s.mode := rfl
@[simp] theorem State.halt_out : (s.halt).out = s.out := rfl
@[simp] theorem State.halt_cell (j : Cell) : (s.halt).cell j = s.cell j := rfl
@[simp] theorem State.halt_dataByte (b : Nat) : (s.halt).dataByte b = s.dataByte b := rfl
@[simp] theorem State.halt_pbByte (b : Nat) : (s.halt).pbByte b = s.pbByte b := rfl
@[simp] theorem State.halt_hasValue (l : Loc) : (s.halt).hasValue l = s.hasValue l := by
  cases l <;> rfl

/-- `raise` is the state Safety names for it (60_exceptions.md R139). -/
theorem State.raise_eq (x : Trap) : s.raise x = faultState s x.code x.info := rfl

end Sys2Proof.Machine
end

