-- ==== Sys2Proof/Laws/Memory.lean ====
section
/-! SUPPORT. Memories: a read after a write, and every operation keeps the canonical form. -/

namespace Sys2Proof.Machine

/-! ### Reads after writes -/

theorem Memory.lookup_insert (m : Memory) (a b : Nat) (v : Byte) :
    Memory.lookup (Memory.insert m a v) b = if a = b then some v else Memory.lookup m b := by
  induction m with
  | nil => simp [Memory.insert, Memory.lookup]
  | cons x m ih =>
    obtain ⟨k, w⟩ := x
    by_cases hlt : a < k
    · simp [Memory.insert, hlt, Memory.lookup]
    · by_cases heq : a = k
      · subst heq
        by_cases hb : a = b <;> simp [Memory.insert, Memory.lookup, hb]
      · simp only [Memory.insert, hlt, heq, if_false, Memory.lookup, ih]
        by_cases hk : k = b
        · have : a ≠ b := fun h => heq (h.trans hk.symm)
          simp [hk, this]
        · simp [hk]

theorem Memory.lookup_erase (m : Memory) (a b : Nat) :
    Memory.lookup (Memory.erase m a) b = if a = b then none else Memory.lookup m b := by
  unfold Memory.erase
  induction m with
  | nil => simp [Memory.lookup]
  | cons x m ih =>
    obtain ⟨k, w⟩ := x
    by_cases hk : k = a
    · subst hk
      by_cases hb : k = b <;> simp_all [Memory.lookup]
    · simp only [List.filter_cons, bne_iff_ne, ne_eq, hk, not_false_eq_true, if_true, Memory.lookup, ih]
      by_cases hb : k = b
      · have : a ≠ b := fun h => hk (hb.trans h.symm)
        simp [hb, this]
      · simp [hb]

/-- A read after a write: the byte written at its address, the old byte elsewhere. -/
@[simp] theorem Memory.read_write (p : ResetPolicy) (m : Memory) (a b : Nat) (v : Byte) :
    Memory.read p (Memory.write p m a v) b = if a = b then some v else Memory.read p m b := by
  unfold Memory.write Memory.read
  by_cases hu : unlistedByte p = some v
  · simp only [hu, if_true, Memory.lookup_erase]
    by_cases hb : a = b <;> simp [hb]
  · simp only [hu, if_false, Memory.lookup_insert]
    by_cases hb : a = b <;> simp [hb]

/-- A read after a list of bytes is written at rising addresses. -/
theorem Memory.read_writeList (p : ResetPolicy) (vs : List Byte) (m : Memory) (a b : Nat) :
    Memory.read p (Memory.writeList p m a vs) b
      = if a ≤ b ∧ b < a + vs.length then vs[b - a]? else Memory.read p m b := by
  induction vs generalizing m a with
  | nil => simp [Memory.writeList]
  | cons v vs ih =>
    simp only [Memory.writeList, ih, Memory.read_write, List.length_cons]
    by_cases hb : a = b
    · subst hb
      simp
    · by_cases h : a + 1 ≤ b ∧ b < a + 1 + vs.length
      · have h' : a ≤ b ∧ b < a + (vs.length + 1) := by omega
        have e : b - a = (b - (a + 1)) + 1 := by omega
        simp [h, h', e]
      · have h' : ¬(a ≤ b ∧ b < a + (vs.length + 1)) := by omega
        rw [if_neg h, if_neg h', if_neg hb]

/-! ### The canonical form -/

theorem Memory.mem_insert (m : Memory) (a : Nat) (v : Byte) (x : Host.Cell)
    (hx : x ∈ Memory.insert m a v) : x = (a, v) ∨ x ∈ m := by
  induction m with
  | nil => simpa [Memory.insert] using hx
  | cons y m ih =>
    obtain ⟨k, w⟩ := y
    by_cases hlt : a < k
    · simpa [Memory.insert, hlt] using hx
    · by_cases heq : a = k
      · subst heq
        simp only [Memory.insert, lt_self_iff_false, if_false, if_true, List.mem_cons] at hx ⊢
        tauto
      · simp only [Memory.insert, hlt, heq, if_false, List.mem_cons] at hx ⊢
        rcases hx with hx | hx
        · tauto
        · have := ih hx
          tauto

theorem Memory.sorted_insert (m : Memory) (a : Nat) (v : Byte) (hs : Memory.sorted m = true) :
    Memory.sorted (Memory.insert m a v) = true := by
  induction m with
  | nil => simp [Memory.insert, Memory.sorted]
  | cons y m ih =>
    obtain ⟨k, w⟩ := y
    simp only [Memory.sorted, Bool.and_eq_true, List.all_eq_true, decide_eq_true_eq] at hs
    obtain ⟨hk, hm⟩ := hs
    by_cases hlt : a < k
    · rw [Memory.insert, if_pos hlt]
      simp only [Memory.sorted, Bool.and_eq_true, List.all_eq_true, decide_eq_true_eq, List.mem_cons,
        forall_eq_or_imp]
      exact ⟨⟨hlt, fun x hx => Nat.lt_trans hlt (hk x hx)⟩, hk, hm⟩
    · by_cases heq : a = k
      · subst heq
        simp only [Memory.insert, lt_self_iff_false, if_false, if_true, Memory.sorted, Bool.and_eq_true,
          List.all_eq_true, decide_eq_true_eq]
        exact ⟨hk, hm⟩
      · simp only [Memory.insert, hlt, heq, if_false, Memory.sorted, Bool.and_eq_true, List.all_eq_true,
          decide_eq_true_eq]
        refine ⟨fun x hx => ?_, ih hm⟩
        rcases Memory.mem_insert m a v x hx with rfl | hx
        · exact Nat.lt_of_le_of_ne (Nat.le_of_not_lt hlt) (Ne.symm heq)
        · exact hk x hx

theorem Memory.sorted_erase (m : Memory) (a : Nat) (hs : Memory.sorted m = true) :
    Memory.sorted (Memory.erase m a) = true := by
  unfold Memory.erase
  induction m with
  | nil => rfl
  | cons y m ih =>
    obtain ⟨k, w⟩ := y
    simp only [Memory.sorted, Bool.and_eq_true, List.all_eq_true, decide_eq_true_eq] at hs
    by_cases hk : k = a
    · simpa [List.filter_cons, hk] using ih hs.2
    · simp only [List.filter_cons, bne_iff_ne, ne_eq, hk, not_false_eq_true, if_true, Memory.sorted,
        Bool.and_eq_true, List.all_eq_true, decide_eq_true_eq]
      exact ⟨fun x hx => hs.1 x (List.mem_of_mem_filter hx), ih hs.2⟩

/-- What the canonical form says, entry by entry. -/
theorem Memory.wf_iff (p : ResetPolicy) (size : Nat) (m : Memory) :
    Memory.wf p size m = true ↔
      Memory.sorted m = true ∧ ∀ x ∈ m, x.1 < size ∧ unlistedByte p ≠ some x.2 := by
  simp [Memory.wf]

/-- A write below `size` keeps the canonical form. -/
theorem Memory.wf_write (p : ResetPolicy) (size : Nat) (m : Memory) (a : Nat) (v : Byte) (ha : a < size)
    (h : Memory.wf p size m = true) : Memory.wf p size (Memory.write p m a v) = true := by
  rw [Memory.wf_iff] at h ⊢
  unfold Memory.write
  split
  · exact ⟨Memory.sorted_erase m a h.1, fun x hx => h.2 x (List.mem_of_mem_filter hx)⟩
  · rename_i hu
    refine ⟨Memory.sorted_insert m a v h.1, fun x hx => ?_⟩
    rcases Memory.mem_insert m a v x hx with rfl | hx
    · exact ⟨ha, hu⟩
    · exact h.2 x hx

theorem Memory.wf_writeList (p : ResetPolicy) (size : Nat) (vs : List Byte) (m : Memory) (a : Nat)
    (ha : a + vs.length ≤ size) (h : Memory.wf p size m = true) :
    Memory.wf p size (Memory.writeList p m a vs) = true := by
  induction vs generalizing m a with
  | nil => exact h
  | cons v vs ih =>
    simp only [List.length_cons] at ha
    exact ih _ _ (by omega) (Memory.wf_write p size m a v (by omega) h)

/-- The memory after reset is canonical. -/
theorem Memory.wf_reset : Memory.wf State.reset.cfg.resetPolicy State.reset.cfg.memSize State.reset.mem = true := rfl

/-! ### Data memory -/

@[simp] theorem State.setMemByte_dataByte (s : State) (a b : Nat) (v : Byte) :
    (s.setMemByte a v).dataByte b = if a = b then some v else s.dataByte b := by
  simp [State.dataByte]

/-- The two bytes of a word access are distinct (20_memory.md R38). -/
theorem secondAddr_ne (r : WordAtFFFF) (a : Word) : secondAddr r a ≠ a.toNat := by
  cases r
  · have h : (a + 1).toNat = (a.toNat + 1) % 2 ^ 16 := by simp [BitVec.toNat_add]
    have := a.isLt
    simp only [secondAddr, h]
    omega
  · simp [secondAddr]

theorem secondAddr_lt (r : WordAtFFFF) (a : Word) : secondAddr r a < 2 ^ 20 := by
  have := a.isLt
  cases r
  · have := (a + 1).isLt
    simp only [secondAddr]
    omega
  · simp only [secondAddr]
    omega

/-- Everything `MemWrite` does to data memory (20_memory.md R39): the bytes it stores, and no other. -/
theorem State.memWrite_dataByte (s : State) (w : Width) (a v : Word) (b : Nat) :
    (s.memWrite w a v).dataByte b =
      match w with
      | .byte => if a.toNat = b then some (loByte v) else s.dataByte b
      | .word =>
        if secondAddr s.cfg.wordAtFFFF a = b then some (hiByte v)
        else if a.toNat = b then some (loByte v) else s.dataByte b := by
  cases w <;> simp [State.memWrite]

theorem State.memWrite_written (s : State) (w : Width) (a v : Word) : DataWritten s (s.memWrite w a v) w a v := by
  have h := secondAddr_ne s.cfg.wordAtFFFF a
  cases w <;> simp [DataWritten, State.memWrite_dataByte, h]

theorem State.memWrite_kept (s : State) (w : Width) (a v : Word) :
    MemKeptBut s (s.memWrite w a v) (s.accessAddrs w a) := by
  intro b hb
  cases w
  · have h : a.toNat ≠ b := fun h => hb (by simp [State.accessAddrs, h])
    simp [State.memWrite_dataByte, h]
  · have h : a.toNat ≠ b := fun h => hb (by simp [State.accessAddrs, h])
    have h2 : secondAddr s.cfg.wordAtFFFF a ≠ b := fun h => hb (by simp [State.accessAddrs, h])
    simp [State.memWrite_dataByte, h, h2]

/-- `MemWrite` keeps the canonical form of data memory. -/
theorem State.memWrite_wf (s : State) (w : Width) (a v : Word) (hsz : 2 ^ 20 ≤ s.cfg.memSize)
    (h : Memory.wf s.cfg.resetPolicy s.cfg.memSize s.mem = true) :
    Memory.wf s.cfg.resetPolicy s.cfg.memSize (s.memWrite w a v).mem = true := by
  have ha : a.toNat < s.cfg.memSize := by have := a.isLt; omega
  have ha2 := Nat.lt_of_lt_of_le (secondAddr_lt s.cfg.wordAtFFFF a) hsz
  cases w
  · exact Memory.wf_write _ _ _ _ _ ha h
  · exact Memory.wf_write _ _ _ _ _ ha2 (Memory.wf_write _ _ _ _ _ ha h)

end Sys2Proof.Machine
end

