-- ==== Sys2Proof/Laws/Operands.lean ====
section
/-! SUPPORT. Cells, register views and operands: one lemma per operation that says everything it can do. -/

namespace Sys2Proof.Machine

/-! ### Cells (10_state.md R14) -/

@[simp] theorem Cells.get_set {α : Type} (r : Cells α) (j k : Cell) (v : α) :
    (r.set k v).get j = if j = k then v else r.get j := by
  cases k <;> cases j <;> rfl

@[simp] theorem Cells.get_fill {α : Type} (k : Cell) (v : α) : (Cells.fill v).get k = v := by cases k <;> rfl

@[simp] theorem Cells.set_fill {α : Type} (k : Cell) (v : α) : (Cells.fill v).set k v = Cells.fill v := by
  cases k <;> rfl

@[simp] theorem State.setCell_cell (s : State) (j k : Cell) (v : Word) (m : ByteMarks) :
    (s.setCell k v m).cell j = if j = k then v else s.cell j := by simp [State.cell]

@[simp] theorem State.writeCell_cell (s : State) (j k : Cell) (v : Word) :
    (s.writeCell k v).cell j = if j = k then v else s.cell j := by simp [State.cell]

/-! ### What a location's having a value comes to (10_state.md R29) -/

/-- Under `RESET_POLICY = zero` every byte and flag has a value (R28). -/
theorem State.hasValue_zero (s : State) (h : s.cfg.resetPolicy = .zero) (l : Loc) : s.hasValue l = true := by
  simp [State.hasValue, h]

/-- No fault is raised exactly when every byte and flag read has a value. -/
theorem State.readTrap_none (s : State) (ls : List Loc) :
    s.readTrap ls = none ↔ ∀ l ∈ ls, s.hasValue l = true := by
  simp [State.readTrap]

/-- The first byte or flag with no value is the one named. -/
theorem State.readTrap_first (s : State) (pre : List Loc) (l : Loc) (post : List Loc)
    (hpre : ∀ x ∈ pre, s.hasValue x = true) (hl : s.hasValue l = false) :
    s.readTrap (pre ++ l :: post) = some ⟨.uninitialisedRead, l.info⟩ := by
  have : pre.find? (fun x => !s.hasValue x) = none := by simpa using hpre
  simp [State.readTrap, List.find?_append, this, hl]

/-- A read fault is always `UNINITIALISED_READ`, and only under `RESET_POLICY = undefined`. -/
theorem State.readTrap_some (s : State) (ls : List Loc) (x : Trap) (h : s.readTrap ls = some x) :
    x.code = .uninitialisedRead ∧ s.cfg.resetPolicy = .undefined := by
  simp only [State.readTrap, Option.map_eq_some_iff] at h
  obtain ⟨l, hl, rfl⟩ := h
  refine ⟨rfl, ?_⟩
  have hv := List.find?_some hl
  cases hp : s.cfg.resetPolicy
  · simp [State.hasValue, hp] at hv
  · rfl

/-! ### Register views (10_state.md R16, R17) -/

/-- A view write is a write of its cell. -/
theorem State.regWrite_eq (s : State) (r : Reg) (v : Word) :
    ∃ x m, s.regWrite r v = s.setCell (viewCell r) x m ∧
      (s.known.get (viewCell r) = ⟨true, true⟩ → m = ⟨true, true⟩) := by
  unfold State.regWrite State.writeCell
  cases viewPart r
  · exact ⟨_, _, rfl, fun _ => rfl⟩
  · exact ⟨_, _, rfl, fun h => by rw [h]⟩
  · exact ⟨_, _, rfl, fun h => by rw [h]⟩

theorem State.regWrite_written (s : State) (r : Reg) (v : Word) : ViewWritten s (s.regWrite r v) r v := by
  cases h : viewPart r <;>
    simp [ViewWritten, State.regWrite, h, LowIs, HighIs, LowKept, HighKept]

theorem State.regWrite_kept (s : State) (r : Reg) (v : Word) : CellsKeptBut s (s.regWrite r v) (viewCell r) := by
  obtain ⟨x, m, e, -⟩ := s.regWrite_eq r v
  intro j hj
  simp [CellKept, e, hj]

/-! ### Memory writes -/

/-- A data write changes only data memory. -/
theorem State.memWrite_eq (s : State) (w : Width) (a v : Word) :
    s.memWrite w a v = { s with mem := (s.memWrite w a v).mem } := by cases w <;> rfl

/-! ### WriteOp (40_sequencer.md R90) -/

/-- The parts of the state that no operand write touches. -/
structure NotOperand (s t : State) : Prop where
  fixed : Fixed s t
  flags : FlagsKept s t
  ip : t.ip = s.ip

theorem State.writeOp_rest (s : State) (w : Width) (op : Operand) (v : Word) : NotOperand s (s.writeOp w op v) := by
  cases op with
  | reg r =>
    obtain ⟨x, m, e, -⟩ := s.regWrite_eq r v
    simp only [State.writeOp, e]
    exact ⟨⟨rfl, rfl, rfl, rfl, rfl, rfl⟩, ⟨rfl, rfl, rfl, rfl⟩, rfl⟩
  | mem sel d =>
    simp only [State.writeOp]
    rw [State.memWrite_eq]
    exact ⟨⟨rfl, rfl, rfl, rfl, rfl, rfl⟩, ⟨rfl, rfl, rfl, rfl⟩, rfl⟩
  | imm _ => exact ⟨⟨rfl, rfl, rfl, rfl, rfl, rfl⟩, ⟨rfl, rfl, rfl, rfl⟩, rfl⟩
  | rel _ => exact ⟨⟨rfl, rfl, rfl, rfl, rfl, rfl⟩, ⟨rfl, rfl, rfl, rfl⟩, rfl⟩
  | none => exact ⟨⟨rfl, rfl, rfl, rfl, rfl, rfl⟩, ⟨rfl, rfl, rfl, rfl⟩, rfl⟩

/-- Everything an operand write does, for a destination it can write. -/
theorem State.writeOp_written (s : State) (w : Width) (op : Operand) (v : Word) (h : writeKindTrap op = none) :
    Written s (s.writeOp w op v) w op v := by
  cases op with
  | reg r =>
    refine ⟨s.regWrite_written r v, s.regWrite_kept r v, fun a => ?_⟩
    obtain ⟨x, m, e, -⟩ := s.regWrite_eq r v
    simp [State.writeOp, e]
  | mem sel d =>
    refine ⟨s.memWrite_written w _ v, s.memWrite_kept w _ v, fun k => ?_⟩
    simp only [State.writeOp]
    rw [State.memWrite_eq]
    exact ⟨rfl, rfl⟩
  | imm _ => simp [writeKindTrap] at h
  | rel _ => simp [writeKindTrap] at h
  | none => simp [writeKindTrap] at h

/-! ### `Written` looks only at cells, their value marks and data memory -/

theorem Written.congr {s t u : State} {w : Width} {dst : Operand} {v : Word} (h : Written s t w dst v)
    (hr : u.regs = t.regs) (hk : u.known = t.known) (hm : u.mem = t.mem) (hc : u.cfg = t.cfg) :
    Written s u w dst v := by
  have hcell : u.cell = t.cell := by funext k; simp [State.cell, hr]
  have hd : u.dataByte = t.dataByte := by funext a; simp [State.dataByte, hm, hc]
  cases dst with
  | reg r =>
    simpa only [Written, ViewWritten, LowIs, HighIs, LowKept, HighKept, CellsKeptBut, CellKept, MemKept, hcell, hk,
      hd] using h
  | mem sel d =>
    simpa only [Written, DataWritten, MemKeptBut, CellsKept, CellKept, hcell, hk, hd] using h
  | imm _ => exact h
  | rel _ => exact h
  | none => exact h

end Sys2Proof.Machine
end

