-- ==== Sys2Proof/Laws/Exec.lean ====
section
/-! SUPPORT. What taking an instruction can do: the shared bodies, and one inversion lemma for `exec`. -/

namespace Sys2Proof.Machine

/-! ### Completing or faulting (00_scope.md R11) -/

@[simp] theorem State.complete_none (s t : State) : s.complete none t = .next t := rfl

@[simp] theorem State.complete_some (s t : State) (x : Trap) : s.complete (some x) t = .next (s.raise x) := rfl

/-- `complete` always answers a next state: the fault's or the completed one. -/
theorem State.complete_cases (s t : State) (o : Option Trap) :
    (o = none ∧ s.complete o t = .next t) ∨ ∃ x, o = some x ∧ s.complete o t = .next (s.raise x) := by
  cases o with
  | none => exact .inl ⟨rfl, rfl⟩
  | some x => exact .inr ⟨x, rfl, rfl⟩

/-! ### Which body an instruction has (40_sequencer.md R83) -/

theorem exec_mov (i : Instr) (s : State) (h : (record i s.ip).op = .mov) : exec i s = execMov (record i s.ip) s := by
  cases i with
  | movRmReg | movImmRm | movImmReg | movMemAcc | movAccMem => rfl
  | addRmReg d | subRmReg d | cmpRmReg d => cases d <;> simp [record, rmRegRecord] at h
  | _ => simp [record, jumpRecord] at h

theorem exec_add (i : Instr) (s : State) (h : (record i s.ip).op = .add) : exec i s = execAdd (record i s.ip) s := by
  cases i with
  | addRmReg | addImmRm | addImmAcc => rfl
  | movRmReg d | subRmReg d | cmpRmReg d => cases d <;> simp [record, rmRegRecord] at h
  | _ => simp [record, jumpRecord] at h

theorem exec_sub (i : Instr) (s : State) (h : (record i s.ip).op = .sub) : exec i s = execSub (record i s.ip) s := by
  cases i with
  | subRmReg | subImmRm | subImmAcc => rfl
  | movRmReg d | addRmReg d | cmpRmReg d => cases d <;> simp [record, rmRegRecord] at h
  | _ => simp [record, jumpRecord] at h

theorem exec_cmp (i : Instr) (s : State) (h : (record i s.ip).op = .cmp) : exec i s = execCmp (record i s.ip) s := by
  cases i with
  | cmpRmReg | cmpImmRm | cmpImmAcc => rfl
  | movRmReg d | addRmReg d | subRmReg d => cases d <;> simp [record, rmRegRecord] at h
  | _ => simp [record, jumpRecord] at h

@[simp] theorem record_size (i : Instr) (a : Nat) : (record i a).size = i.size := by
  cases i with
  | movRmReg d | addRmReg d | subRmReg d | cmpRmReg d => cases d <;> rfl
  | _ => rfl

@[simp] theorem record_address (i : Instr) (a : Nat) : (record i a).address = a := by
  cases i with
  | movRmReg d | addRmReg d | subRmReg d | cmpRmReg d => cases d <;> rfl
  | _ => rfl

/-- A decoded `mov`, `add`, `sub` or `cmp` never has an operand kind that faults (40_sequencer.md R90). -/
theorem record_kinds (i : Instr) (a : Nat)
    (h : (record i a).op = .mov ∨ (record i a).op = .add ∨ (record i a).op = .sub ∨ (record i a).op = .cmp) :
    writeKindTrap (record i a).dst = none ∧ readKindTrap 0 (record i a).dst = none ∧
      readKindTrap 1 (record i a).src = none := by
  cases i with
  | movRmReg d _ _ rm | addRmReg d _ _ rm | subRmReg d _ _ rm | cmpRmReg d _ _ rm =>
    cases d <;> cases rm <;> exact ⟨rfl, rfl, rfl⟩
  | movImmRm _ _ rm | addImmRm _ _ rm | subImmRm _ _ rm | cmpImmRm _ _ rm => cases rm <;> exact ⟨rfl, rfl, rfl⟩
  | movImmReg | movMemAcc | movAccMem | addImmAcc | subImmAcc | cmpImmAcc => exact ⟨rfl, rfl, rfl⟩
  | _ => simp [record, jumpRecord] at h

theorem movTrap_record (i : Instr) (s : State) (h : (record i s.ip).op = .mov) :
    s.movTrap (record i s.ip) = s.readTrap (s.movReads (record i s.ip)) := by
  obtain ⟨h1, -, h3⟩ := record_kinds i s.ip (.inl h)
  rw [State.movTrap, h1, h3, Option.none_or, Option.none_or]

theorem aluTrap_record (i : Instr) (s : State) (h : (record i s.ip).op = .add ∨ (record i s.ip).op = .sub) :
    s.aluTrap (record i s.ip) = s.readTrap (s.aluReads (record i s.ip)) := by
  obtain ⟨h1, -, h3⟩ := record_kinds i s.ip (by tauto)
  rw [State.aluTrap, h1, h3, Option.none_or, Option.none_or]

theorem cmpTrap_record (i : Instr) (s : State) (h : (record i s.ip).op = .cmp) :
    s.cmpTrap (record i s.ip) = s.readTrap (s.aluReads (record i s.ip)) := by
  obtain ⟨-, h2, h3⟩ := record_kinds i s.ip (by tauto)
  rw [State.cmpTrap, h2, h3, Option.none_or, Option.none_or]

/-! ### Branches (43_jumps_loops.md R114) -/

theorem State.targetTrap_none (s : State) (rel : Byte) : s.targetTrap rel = none ↔ TargetInRange s rel := by
  unfold State.targetTrap TargetInRange State.target
  split <;> simp_all

theorem State.targetTrap_some (s : State) (rel : Byte) (h : ¬ TargetInRange s rel) :
    s.targetTrap rel = some ⟨.branchOutOfRange, BitVec.ofInt 32 ((s.ip : Int) + 2 + rel.toInt)⟩ := by
  simp only [TargetInRange] at h
  simp [State.targetTrap, State.target, h]

/-- Everything a branch does once its tested bytes and flags have values. -/
theorem State.branch_outcome (s : State) (rel : Byte) (reads : List Loc) (taken : Bool) (upd : State)
    (h : ∀ l ∈ reads, s.hasValue l = true) :
    BranchOutcome (s.branch rel reads taken upd) s rel taken upd := by
  have hr := (s.readTrap_none reads).2 h
  refine ⟨fun ht hin => ?_, fun ht hout => ?_, fun ht => ?_⟩
  · simp only [State.branch, hr, ht, (s.targetTrap_none rel).2 hin, if_true, Option.none_or, State.complete_none]
    rfl
  · simp only [State.branch, hr, ht, s.targetTrap_some rel hout, if_true, Option.none_or, State.complete_some]
    rfl
  · simp only [State.branch, hr, ht, Bool.false_eq_true, if_false, Option.none_or, State.complete_none]
    rfl

/-- What a branch can answer: a fault of its own, or `upd` with `ip` past it or at a target in 0..n. -/
theorem State.branch_cases (s : State) (rel : Byte) (reads : List Loc) (taken : Bool) (upd t : State)
    (h : s.branch rel reads taken upd = .next t) :
    (∃ x, t = s.raise x ∧ (x.code = .uninitialisedRead ∧ s.cfg.resetPolicy = .undefined ∨ x.code = .branchOutOfRange)) ∨
      (t = upd.setIp (s.ip + 2)) ∨
      (taken = true ∧ TargetInRange s rel ∧ t = upd.setIp ((s.ip : Int) + 2 + rel.toInt).toNat) := by
  unfold State.branch at h
  cases hr : s.readTrap reads with
  | some x =>
    simp only [hr, Option.some_or, State.complete_some] at h
    cases h
    exact .inl ⟨x, rfl, .inl (s.readTrap_some reads x hr)⟩
  | none =>
    cases taken with
    | false =>
      simp only [hr, Option.none_or, Bool.false_eq_true, if_false, State.complete_none] at h
      cases h
      exact .inr (.inl rfl)
    | true =>
      by_cases hin : TargetInRange s rel
      · simp only [hr, Option.none_or, if_true, (s.targetTrap_none rel).2 hin, State.complete_none] at h
        cases h
        exact .inr (.inr ⟨rfl, hin, rfl⟩)
      · simp only [hr, Option.none_or, if_true, s.targetTrap_some rel hin, State.complete_some] at h
        cases h
        exact .inl ⟨_, rfl, .inr rfl⟩

/-! ### The inversion lemma of `exec` -/

/-- What `exec` can leave. -/
inductive ExecCase (i : Instr) (s t : State) : Prop where
  /-- a fault: only the status record is written -/
  | fault (x : Trap) (e : t = s.raise x)
      (code : x.code = .uninitialisedRead ∧ s.cfg.resetPolicy = .undefined ∨ x.code = .branchOutOfRange ∨
        x.code = .unimplementedBranch)
  /-- `mov` or `add`: one operand written -/
  | move (op : (record i s.ip).op = .mov ∨ (record i s.ip).op = .add) (v : Word)
      (kind : writeKindTrap (record i s.ip).dst = none)
      (e : t = (s.writeOp (record i s.ip).wide (record i s.ip).dst v).advance i.size)
  /-- `sub`: one operand and both flags written -/
  | sub (op : (record i s.ip).op = .sub) (v : Word) (z f : Bool)
      (kind : writeKindTrap (record i s.ip).dst = none)
      (e : t = ((s.writeOp (record i s.ip).wide (record i s.ip).dst v).setFlags z f).advance i.size)
  /-- `cmp`: both flags written -/
  | cmp (op : (record i s.ip).op = .cmp) (z f : Bool) (e : t = (s.setFlags z f).advance i.size)
  /-- a jump or loop: `ip`, and cell c for a loop under `arch8086` -/
  | jump (op : (record i s.ip).op ≠ .mov ∧ (record i s.ip).op ≠ .add ∧ (record i s.ip).op ≠ .sub ∧
        (record i s.ip).op ≠ .cmp) (size : i.size = 2) (u : State)
      (upd : u = s ∨ ∃ v, u = s.writeCell .c v ∧ s.cfg.branchExec = .arch8086 ∧
        ((record i s.ip).op = .loop ∨ (record i s.ip).op = .loopz ∨ (record i s.ip).op = .loopnz)) (j : Nat)
      (e : t = u.setIp j)
      (target : j = s.ip + 2 ∨ ∃ rel, (record i s.ip).dst = relOperand rel ∧ TargetInRange s rel ∧
        j = ((s.ip : Int) + 2 + rel.toInt).toNat)

theorem execMov_cases (i : Instr) (s t : State) (hop : (record i s.ip).op = .mov) (h : exec i s = .next t) :
    ExecCase i s t := by
  rw [exec_mov i s hop, execMov, movTrap_record i s hop] at h
  cases hr : s.readTrap (s.movReads (record i s.ip)) with
  | some x =>
    rw [hr] at h; cases h
    exact .fault x rfl (.inl (s.readTrap_some _ _ hr))
  | none =>
    rw [hr] at h; cases h
    exact .move (.inl hop) _ (record_kinds i s.ip (.inl hop)).1 (by rw [record_size])

theorem execAdd_cases (i : Instr) (s t : State) (hop : (record i s.ip).op = .add) (h : exec i s = .next t) :
    ExecCase i s t := by
  rw [exec_add i s hop, execAdd, aluTrap_record i s (.inl hop)] at h
  cases hr : s.readTrap (s.aluReads (record i s.ip)) with
  | some x =>
    rw [hr] at h; cases h
    exact .fault x rfl (.inl (s.readTrap_some _ _ hr))
  | none =>
    rw [hr] at h; cases h
    exact .move (.inr hop) _ (record_kinds i s.ip (.inr (.inl hop))).1 (by rw [record_size])

theorem execSub_cases (i : Instr) (s t : State) (hop : (record i s.ip).op = .sub) (h : exec i s = .next t) :
    ExecCase i s t := by
  rw [exec_sub i s hop, execSub, aluTrap_record i s (.inr hop)] at h
  cases hr : s.readTrap (s.aluReads (record i s.ip)) with
  | some x =>
    rw [hr] at h; cases h
    exact .fault x rfl (.inl (s.readTrap_some _ _ hr))
  | none =>
    rw [hr] at h; cases h
    exact .sub hop _ _ _ (record_kinds i s.ip (.inr (.inr (.inl hop)))).1 (by rw [record_size, State.subFlags])

theorem execCmp_cases (i : Instr) (s t : State) (hop : (record i s.ip).op = .cmp) (h : exec i s = .next t) :
    ExecCase i s t := by
  rw [exec_cmp i s hop, execCmp, cmpTrap_record i s hop] at h
  cases hr : s.readTrap (s.aluReads (record i s.ip)) with
  | some x =>
    rw [hr] at h; cases h
    exact .fault x rfl (.inl (s.readTrap_some _ _ hr))
  | none =>
    rw [hr] at h; cases h
    exact .cmp hop _ _ (by rw [record_size, State.subFlags])

/-- What the policy of R116 can answer. -/
theorem State.branchPolicy_cases (s t : State) (opcode : Byte) (arch : Result)
    (h : s.branchPolicy opcode arch = .next t) :
    t = s.raise ⟨.unimplementedBranch, opcode.setWidth 32⟩ ∨ t = s.advance 2 ∨
      (s.cfg.branchExec = .arch8086 ∧ arch = .next t) := by
  unfold State.branchPolicy State.unimplemented at h
  cases hp : s.cfg.branchExec with
  | fault => rw [hp] at h; cases h; exact .inl rfl
  | fallthrough => rw [hp] at h; cases h; exact .inr (.inl rfl)
  | arch8086 => rw [hp] at h; exact .inr (.inr ⟨rfl, h⟩)

/-- A jump by the policy whose `arch8086` meaning is a branch that writes `ip` alone. -/
theorem policyJump_cases (i : Instr) (s t : State) (rel opcode : Byte) (op : Op) (arch : Result)
    (hi : record i s.ip = jumpRecord op rel s.ip) (hsz : i.size = 2)
    (hop : op ≠ .mov ∧ op ≠ .add ∧ op ≠ .sub ∧ op ≠ .cmp)
    (harch : arch = s.unimplemented opcode ∨ ∃ reads taken, arch = s.branch rel reads taken s ∨
      ∃ v, (op = .loop ∨ op = .loopz ∨ op = .loopnz) ∧ arch = s.branch rel reads taken (s.writeCell .c v))
    (h : s.branchPolicy opcode arch = .next t) : ExecCase i s t := by
  have hop' : (record i s.ip).op ≠ .mov ∧ (record i s.ip).op ≠ .add ∧ (record i s.ip).op ≠ .sub ∧
      (record i s.ip).op ≠ .cmp := by rw [hi]; exact hop
  have hdst : (record i s.ip).dst = relOperand rel := by rw [hi]; rfl
  obtain rfl | rfl | ⟨hp, ha⟩ := s.branchPolicy_cases t opcode arch h
  · exact .fault _ rfl (.inr (.inr rfl))
  · exact .jump hop' hsz s (.inl rfl) _ rfl (.inl rfl)
  · obtain rfl | ⟨reads, taken, rfl | ⟨v, hl, rfl⟩⟩ := harch
    · cases ha
      exact .fault _ rfl (.inr (.inr rfl))
    · obtain ⟨x, rfl, hc⟩ | rfl | ⟨-, hin, rfl⟩ := s.branch_cases rel reads taken s t ha
      · exact .fault x rfl (hc.elim .inl (fun c => .inr (.inl c)))
      · exact .jump hop' hsz s (.inl rfl) _ rfl (.inl rfl)
      · exact .jump hop' hsz s (.inl rfl) _ rfl (.inr ⟨rel, hdst, hin, rfl⟩)
    · have hupd : s.writeCell .c v = s ∨ ∃ v', s.writeCell .c v = s.writeCell .c v' ∧ s.cfg.branchExec = .arch8086 ∧
          ((record i s.ip).op = .loop ∨ (record i s.ip).op = .loopz ∨ (record i s.ip).op = .loopnz) :=
        .inr ⟨v, rfl, hp, by rw [hi]; exact hl⟩
      obtain ⟨x, rfl, hc⟩ | rfl | ⟨-, hin, rfl⟩ := s.branch_cases rel reads taken _ t ha
      · exact .fault x rfl (hc.elim .inl (fun c => .inr (.inl c)))
      · exact .jump hop' hsz _ hupd _ rfl (.inl rfl)
      · exact .jump hop' hsz _ hupd _ rfl (.inr ⟨rel, hdst, hin, rfl⟩)

/-- Everything `exec` can leave, over all instructions. -/
theorem exec_cases (i : Instr) (s t : State) (h : exec i s = .next t) : ExecCase i s t := by
  cases i with
  | movRmReg d => exact execMov_cases _ s t (by cases d <;> rfl) h
  | movImmRm | movImmReg | movMemAcc | movAccMem => exact execMov_cases _ s t rfl h
  | addRmReg d => exact execAdd_cases _ s t (by cases d <;> rfl) h
  | addImmRm | addImmAcc => exact execAdd_cases _ s t rfl h
  | subRmReg d => exact execSub_cases _ s t (by cases d <;> rfl) h
  | subImmRm | subImmAcc => exact execSub_cases _ s t rfl h
  | cmpRmReg d => exact execCmp_cases _ s t (by cases d <;> rfl) h
  | cmpImmRm | cmpImmAcc => exact execCmp_cases _ s t rfl h
  | jne rel =>
    obtain ⟨x, rfl, hc⟩ | rfl | ⟨-, hin, rfl⟩ := s.branch_cases rel [.zf] (!s.zf) s t h
    · exact .fault x rfl (hc.elim .inl (fun c => .inr (.inl c)))
    · exact .jump ⟨nofun, nofun, nofun, nofun⟩ rfl s (.inl rfl) _ rfl (.inl rfl)
    · exact .jump ⟨nofun, nofun, nofun, nofun⟩ rfl s (.inl rfl) _ rfl (.inr ⟨rel, rfl, hin, rfl⟩)
  | je rel => exact policyJump_cases _ s t rel _ .je _ rfl rfl (by decide) (.inr ⟨_, _, .inl rfl⟩) h
  | js rel => exact policyJump_cases _ s t rel _ .js _ rfl rfl (by decide) (.inr ⟨_, _, .inl rfl⟩) h
  | jns rel => exact policyJump_cases _ s t rel _ .jns _ rfl rfl (by decide) (.inr ⟨_, _, .inl rfl⟩) h
  | jcxz rel => exact policyJump_cases _ s t rel _ .jcxz _ rfl rfl (by decide) (.inr ⟨_, _, .inl rfl⟩) h
  | loop rel => exact policyJump_cases _ s t rel _ .loop _ rfl rfl (by decide) (.inr ⟨_, _, .inr ⟨_, by decide, rfl⟩⟩) h
  | loopz rel => exact policyJump_cases _ s t rel _ .loopz _ rfl rfl (by decide) (.inr ⟨_, _, .inr ⟨_, by decide, rfl⟩⟩) h
  | loopnz rel =>
    exact policyJump_cases _ s t rel _ .loopnz _ rfl rfl (by decide) (.inr ⟨_, _, .inr ⟨_, by decide, rfl⟩⟩) h
  | jo rel => exact policyJump_cases _ s t rel _ .jo _ rfl rfl (by decide) (.inl rfl) h
  | jno rel => exact policyJump_cases _ s t rel _ .jno _ rfl rfl (by decide) (.inl rfl) h
  | jb rel => exact policyJump_cases _ s t rel _ .jb _ rfl rfl (by decide) (.inl rfl) h
  | jnb rel => exact policyJump_cases _ s t rel _ .jnb _ rfl rfl (by decide) (.inl rfl) h
  | jbe rel => exact policyJump_cases _ s t rel _ .jbe _ rfl rfl (by decide) (.inl rfl) h
  | jnbe rel => exact policyJump_cases _ s t rel _ .jnbe _ rfl rfl (by decide) (.inl rfl) h
  | jp rel => exact policyJump_cases _ s t rel _ .jp _ rfl rfl (by decide) (.inl rfl) h
  | jnp rel => exact policyJump_cases _ s t rel _ .jnp _ rfl rfl (by decide) (.inl rfl) h
  | jl rel => exact policyJump_cases _ s t rel _ .jl _ rfl rfl (by decide) (.inl rfl) h
  | jnl rel => exact policyJump_cases _ s t rel _ .jnl _ rfl rfl (by decide) (.inl rfl) h
  | jle rel => exact policyJump_cases _ s t rel _ .jle _ rfl rfl (by decide) (.inl rfl) h
  | jnle rel => exact policyJump_cases _ s t rel _ .jnle _ rfl rfl (by decide) (.inl rfl) h

end Sys2Proof.Machine
end

