-- ==== Sys2Proof/Laws/Step.lean ====
section
/-! SUPPORT. What a step can do, and what the host's moves leave. -/

namespace Sys2Proof.Machine

/-! ### The faults of a decode (60_exceptions.md R141) -/

/-- The code is one that the decoder raises. -/
def DecodeCode (x : Trap) : Prop :=
  x.code = .truncated ∨ x.code = .unrecognizedOpcode ∨ x.code = .unsupportedSubop

/-- Each way a sub-decoder can fail raises one of the decoder's codes. -/
def DecodeErrors {α : Type} (e : Except Trap α) : Prop := ∀ x, e = .error x → DecodeCode x

theorem DecodeErrors.ok {α : Type} (a : α) : DecodeErrors (.ok a : Except Trap α) := nofun

theorem DecodeErrors.bind {α β : Type} {e : Except Trap α} {f : α → Except Trap β} (he : DecodeErrors e)
    (hf : ∀ a, DecodeErrors (f a)) : DecodeErrors (e >>= f) := by
  intro x hx
  cases e with
  | error y =>
    cases hx
    exact he _ rfl
  | ok a => exact hf a x hx

theorem DecodeErrors.ite {α : Type} {c : Prop} [Decidable c] {a b : Except Trap α} (ha : DecodeErrors a)
    (hb : DecodeErrors b) : DecodeErrors (if c then a else b) := by
  by_cases h : c
  · rwa [if_pos h]
  · rwa [if_neg h]

theorem fetchByte_errors (ip : Nat) (bs : List Byte) (k : Nat) : DecodeErrors (fetchByte ip bs k) := by
  intro x hx
  unfold fetchByte at hx
  split at hx
  · cases hx
  · cases hx
    exact .inl rfl

theorem fetchWord_errors (ip : Nat) (bs : List Byte) (k : Nat) : DecodeErrors (fetchWord ip bs k) :=
  (fetchByte_errors ip bs k).bind fun _ => (fetchByte_errors ip bs (k + 1)).bind fun _ => .ok _

theorem decRM_errors (ip : Nat) (bs : List Byte) (m : Byte) (w : Width) : DecodeErrors (decRM ip bs m w) := by
  unfold decRM
  split
  · exact .ok _
  · split
    · split
      · exact (fetchWord_errors ip bs 2).bind fun _ => .ok _
      · exact .ok _
    · split
      · exact (fetchByte_errors ip bs 2).bind fun _ => .ok _
      · exact (fetchWord_errors ip bs 2).bind fun _ => .ok _

theorem decImm_errors (ip : Nat) (bs : List Byte) (k : Nat) (s : Bool) (w : Width) :
    DecodeErrors (decImm ip bs k s w) := by
  cases w with
  | byte => exact (fetchByte_errors ip bs k).bind fun _ => .ok _
  | word =>
    cases s with
    | false => exact fetchWord_errors ip bs k
    | true => exact (fetchByte_errors ip bs k).bind fun _ => .ok _

theorem grp1Op_errors (p : Grp1OtherPolicy) (s : Bool) (sub : BitVec 3) : DecodeErrors (grp1Op p s sub) := by
  intro x hx
  unfold grp1Op at hx
  split at hx
  · cases hx
  · split at hx
    · cases hx
    · split at hx
      · cases hx
      · cases p
        · cases hx
          exact .inr (.inr rfl)
        · cases hx

theorem decRmReg_errors (mk : Dir → Width → Reg → RM → Instr) (d : Dir) (w : Width) (ip : Nat) (bs : List Byte) :
    DecodeErrors (decRmReg mk d w ip bs) :=
  (fetchByte_errors ip bs 1).bind fun m => (decRM_errors ip bs m w).bind fun _ => .ok _

theorem decMovImmRm_errors (w : Width) (ip : Nat) (bs : List Byte) : DecodeErrors (decMovImmRm w ip bs) :=
  (fetchByte_errors ip bs 1).bind fun m => (decRM_errors ip bs m w).bind fun rm =>
    (decImm_errors ip bs (2 + rm.dispBytes) false w).bind fun _ => .ok _

theorem decGrp1_errors (p : Grp1OtherPolicy) (s : Bool) (w : Width) (ip : Nat) (bs : List Byte) :
    DecodeErrors (decGrp1 p s w ip bs) :=
  (fetchByte_errors ip bs 1).bind fun m => (grp1Op_errors p s (regField m)).bind fun _ =>
    (decRM_errors ip bs m w).bind fun rm => (decImm_errors ip bs (2 + rm.dispBytes) s w).bind fun _ => .ok _

theorem decAccMem_errors (mk : Width → Word → Instr) (w : Width) (ip : Nat) (bs : List Byte) :
    DecodeErrors (decAccMem mk w ip bs) := (fetchWord_errors ip bs 1).bind fun _ => .ok _

theorem decImmAcc_errors (mk : Width → Word → Instr) (w : Width) (ip : Nat) (bs : List Byte) :
    DecodeErrors (decImmAcc mk w ip bs) := (decImm_errors ip bs 1 false w).bind fun _ => .ok _

theorem decImmReg_errors (w : Width) (code : BitVec 3) (ip : Nat) (bs : List Byte) :
    DecodeErrors (decImmReg w code ip bs) := (decImm_errors ip bs 1 false w).bind fun _ => .ok _

theorem decFamily_errors (p : Grp1OtherPolicy) (b0 : Byte) (ip : Nat) (bs : List Byte) :
    DecodeErrors (decFamily p b0 ip bs) := by
  have unrecognised : DecodeErrors (.error ⟨.unrecognizedOpcode, b0.setWidth 32⟩ : Except Trap Instr) := by
    intro x hx
    cases hx
    exact .inr (.inl rfl)
  exact .ite (decMovImmRm_errors _ ip bs) <| .ite (decAccMem_errors _ _ ip bs) <| .ite (decAccMem_errors _ _ ip bs) <|
    .ite (decImmAcc_errors _ _ ip bs) <| .ite (decImmAcc_errors _ _ ip bs) <| .ite (decImmAcc_errors _ _ ip bs) <|
    .ite (decRmReg_errors _ _ _ ip bs) <| .ite (decRmReg_errors _ _ _ ip bs) <|
    .ite (decRmReg_errors _ _ _ ip bs) <| .ite (decRmReg_errors _ _ _ ip bs) <|
    .ite (decGrp1_errors p _ _ ip bs) <| .ite (decImmReg_errors _ _ ip bs) unrecognised

/-- A failed decode raises one of the decoder's three codes. -/
theorem decode_errors (p : Grp1OtherPolicy) (ip : Nat) (bs : List Byte) : DecodeErrors (decode p ip bs) := by
  refine (fetchByte_errors ip bs 0).bind fun b0 => ?_
  cases jtab b0 with
  | some mk => exact (fetchByte_errors ip bs 1).bind fun _ => .ok _
  | none => exact decFamily_errors p b0 ip bs

/-! ### The inversion lemma of `step` -/

/-- What a step can leave. -/
inductive StepCase (s t : State) : Prop where
  /-- the end of the run (40_sequencer.md R84) -/
  | finish (atEnd : s.ip = s.n) (e : t = s.finish)
  /-- a decode fault -/
  | decodeFault (inside : s.ip ≠ s.n) (x : Trap) (d : s.decodeNext = .error x) (code : DecodeCode x) (e : t = s.raise x)
  /-- a decode-only step (R82) -/
  | listed (inside : s.ip ≠ s.n) (i : Instr) (d : s.decodeNext = .ok i) (mode : s.mode = .decodeOnly)
      (e : t = s.listStep i)
  /-- an executed instruction -/
  | executed (inside : s.ip ≠ s.n) (i : Instr) (d : s.decodeNext = .ok i) (mode : s.mode = .execute) (u : State)
      (ex : exec i s = .next u) (c : ExecCase i s u) (e : t = s.traced i u)

/-- A step runs only while `STATE = RUNNING`, and then does one of four things. -/
theorem step_cases (s t : State) (h : step s = .next t) : s.status.run = .running ∧ StepCase s t := by
  unfold step at h
  cases hr : s.status.run with
  | halted => rw [hr] at h; cases h
  | faulted => rw [hr] at h; cases h
  | running =>
    rw [hr] at h
    refine ⟨rfl, ?_⟩
    simp only [State.runningStep] at h
    by_cases hn : s.ip = s.n
    · rw [if_pos hn] at h
      cases h
      exact .finish hn rfl
    · rw [if_neg hn] at h
      cases hd : s.decodeNext with
      | error x =>
        rw [hd] at h
        cases h
        exact .decodeFault hn x hd (decode_errors _ _ _ x hd) rfl
      | ok i =>
        rw [hd] at h
        simp only [State.decodedStep] at h
        cases hm : s.mode with
        | decodeOnly =>
          rw [hm] at h
          cases h
          exact .listed hn i hd hm rfl
        | execute =>
          rw [hm] at h
          simp only [State.execStep] at h
          cases he : exec i s with
          | next u =>
            rw [he] at h
            cases h
            exact .executed hn i hd hm u he (exec_cases i s u he) rfl
          | fault f => rw [he] at h; cases h
          | refused r => rw [he] at h; cases h

/-- After a fault nothing is emitted; otherwise one trace is (40_sequencer.md R83). -/
theorem State.traced_faulted (s : State) (i : Instr) (u : State) (h : u.status.run = .faulted) : s.traced i u = u := by
  simp [State.traced, h]

theorem State.traced_completed (s : State) (i : Instr) (u : State) (h : u.status.run ≠ .faulted) :
    s.traced i u = u.emit (traceOf (record i s.ip) s u) := by
  unfold State.traced
  cases hr : u.status.run <;> simp_all

@[simp] theorem State.traced_status (s : State) (i : Instr) (u : State) : (s.traced i u).status = u.status := by
  by_cases h : u.status.run = .faulted
  · rw [s.traced_faulted i u h]
  · rw [s.traced_completed i u h]
    rfl

/-- Emitting changes only the records. -/
theorem State.traced_eq (s : State) (i : Instr) (u : State) :
    s.traced i u = u ∨ ∃ r, s.traced i u = u.emit r := by
  by_cases h : u.status.run = .faulted
  · exact .inl (s.traced_faulted i u h)
  · exact .inr ⟨_, s.traced_completed i u h⟩

/-! ### What records show (40_sequencer.md R92, R93) -/

/-- What the host sees of a cell. -/
theorem State.cellImage_shows (s : State) (k : Cell) : ShowsCell s k (s.cellImage k) := by
  constructor <;> intro h <;> simp [State.cellImage, h]

/-- The final dump is the image of every cell, and `ip`. -/
theorem State.finalDump_shows (s : State) :
    ∃ cells : Cells CellImage, s.finalDump = .finalDump cells s.ip ∧ ∀ k, ShowsCell s k (cells.get k) :=
  ⟨_, rfl, fun k => by cases k <;> exact s.cellImage_shows _⟩

/-- The `reg` field of an instruction that writes a register view. -/
theorem regChange_shown (s t : State) (r : Reg) : RegShown s t (viewCell r) (regChange s t (.reg r)) :=
  ⟨_, _, rfl, s.cellImage_shows _, t.cellImage_shows _⟩

/-- The operand an instruction writes, by its operation. -/
theorem writtenOperand_move (p : BranchExecPolicy) (I : Instruction) (h : I.op = .mov ∨ I.op = .add ∨ I.op = .sub) :
    writtenOperand p I = I.dst := by
  obtain h | h | h := h <;> simp [writtenOperand, h]

theorem writtenOperand_countsDown (p : BranchExecPolicy) (I : Instruction) (h : CountsDown p I.op) :
    writtenOperand p I = .reg .cx := by
  obtain ⟨rfl, h | h | h⟩ := h <;> simp [writtenOperand, h]

theorem writtenOperand_none (p : BranchExecPolicy) (I : Instruction) (h : I.op ≠ .mov ∧ I.op ≠ .add ∧ I.op ≠ .sub)
    (hc : ¬ CountsDown p I.op) : writtenOperand p I = .none := by
  cases ho : I.op <;> simp_all [writtenOperand, CountsDown] <;> cases p <;> simp_all

/-- The bytes the decoder sees, one by one. -/
theorem State.window_getElem? (s : State) (k : Nat) :
    s.window[k]? = if k < min maxLen (s.n - s.ip) then some (s.pbByte (s.ip + k)) else none := by
  unfold State.window
  rw [List.getElem?_map]
  by_cases h : k < min maxLen (s.n - s.ip)
  · simp only [h, if_true]
    rw [List.getElem?_range h]
    rfl
  · have hl : (List.range (min maxLen (s.n - s.ip))).length ≤ k := by
      rw [List.length_range]
      omega
    rw [List.getElem?_eq_none hl]
    simp only [h, if_false, Option.map_none]

@[simp] theorem State.window_length (s : State) : s.window.length = min maxLen (s.n - s.ip) := by
  simp [State.window]

/-- Loading a program puts its bytes at 0, 1, ... and leaves the rest of `PB`. -/
theorem State.loadProgram_pbByte (s : State) (bytes : List Byte) (mode : Mode) (j : Nat) :
    (s.loadProgram bytes mode).pbByte j =
      if j < (bytes.take s.cfg.bufCap).length then ((bytes.take s.cfg.bufCap)[j]?).getD 0 else s.pbByte j := by
  simp only [State.loadProgram, State.pbByte, Memory.read_writeList, Nat.zero_le, true_and, Nat.zero_add, Nat.sub_zero]
  split <;> rfl

/-- Bytes placed at `ip` are what the decoder sees first. -/
theorem State.placeAtIp_pbByte (s : State) (bytes : List Byte) (k : Nat) (h : k < bytes.length) :
    (s.placeAtIp bytes).pbByte (s.ip + k) = (bytes[k]?).getD 0 := by
  have h1 : s.ip ≤ s.ip + k ∧ s.ip + k < s.ip + bytes.length := by omega
  have h2 : s.ip + k - s.ip = k := by omega
  simp [State.placeAtIp, State.pbByte, Memory.read_writeList, h1, h2, h]

end Sys2Proof.Machine
end

