-- ==== Sys2Proof/Tests/Slice0.lean ====
section
/-! SUPPORT. Tests: ill-formed terms, words written out from the spec's encodings, single steps, and a witness for
the hypotheses of each statement. Expected results are the spec's (95_test_vectors.md), not the model's. -/

namespace Sys2Proof.Tests

open Sys2Proof.Machine

/-! ### Helpers -/

/-- A machine with these parameters, its run started in execute mode on a program. -/
def run (bytes : List Byte) (cfg : Config := Config.spec) : State :=
  ({ State.reset with cfg := cfg } : State).beginRun bytes .execute

/-- The 8 cells, 0 unless given. -/
def cells (a b c d : Word := 0) (sp bp si di : Word := 0) : Cells Word := ⟨a, b, c, d, sp, bp, si, di⟩

/-- A data memory with bytes at one address. -/
def bytesAt (a : Nat) (vs : List Byte) : Memory := Memory.writeList .zero [] a vs

/-- What one step leaves, seen through f. -/
def after {α : Type} (s : State) (f : State → α) : Option α :=
  match step s with
  | .next t => some (f t)
  | .fault _ => none
  | .refused _ => none

/-- The status record after one step. -/
def statusAfter (s : State) : Option Status := after s State.status

/-- The default parameters with another `BRANCH_EXEC_POLICY`. -/
def policy (p : BranchExecPolicy) : Config := { Config.spec with branchExec := p }

/-- The default parameters with `RESET_POLICY = undefined`. -/
def undef : Config := { Config.spec with resetPolicy := .undefined }

/-- The default parameters with `RESET_POLICY = undefined` and `BRANCH_EXEC_POLICY = arch8086`. -/
def undefArch : Config := { undef with branchExec := .arch8086 }

/-- A decode under the default parameters, at address 0. -/
def dec (bs : List Byte) : Except Trap Instr := decode .fault 0 bs

/-- The fault code and information word of a decode at address 0. -/
def trapOf (bs : List Byte) : Option (FaultCode × Nat) :=
  match dec bs with
  | .ok _ => none
  | .error t => some (t.code, t.info.toNat)

/-! ### Ill-formed terms (30_encoding.md R57, R61, R70, R72) -/

theorem test_wf_reg_width : (Instr.movRmReg .toRm .word .al (.reg .bx)).wf .fault = false := by decide
theorem test_wf_rm_reg_width : (Instr.addRmReg .toReg .byte .al (.reg .bx)).wf .fault = false := by decide
theorem test_wf_immreg_width : (Instr.movImmReg .byte .ax 1).wf .fault = false := by decide
theorem test_wf_bp_without_displacement : (Instr.subRmReg .toReg .word .ax (.base .bp)).wf .fault = false := by decide
theorem test_wf_byte_immediate : (Instr.cmpImmAcc .byte 256).wf .fault = false := by decide
theorem test_wf_byte_immediate_rm : (Instr.subImmRm false .byte (.reg .al) 256).wf .fault = false := by decide
theorem test_wf_sign_extended_immediate : (Instr.addImmRm true .word (.reg .si) 0x00FE).wf .fault = false := by decide
theorem test_wf_grp1_mov_needs_policy :
    (Instr.movImmRm (.grp1 false 0b001) .byte (.reg .bl) 1).wf .fault = false := by decide
theorem test_wf_grp1_mov_subop :
    (Instr.movImmRm (.grp1 false 0b000) .byte (.reg .bl) 1).wf .mov = false ∧
    (Instr.movImmRm (.grp1 false 0b101) .byte (.reg .bl) 1).wf .mov = false ∧
    (Instr.movImmRm (.grp1 false 0b111) .byte (.reg .bl) 1).wf .mov = false := by decide
theorem test_wf_grp1_mov_ok : (Instr.movImmRm (.grp1 false 0b001) .byte (.reg .bl) 1).wf .mov = true := by decide

/-! ### Decoding: every constructor, words from 95_test_vectors.md section 2 and the encodings of 30_encoding.md -/

theorem test_decode_movRmReg :
    dec [0x88, 0xE0] = .ok (.movRmReg .toRm .byte .ah (.reg .al)) ∧
    dec [0x8A, 0x00] = .ok (.movRmReg .toReg .byte .al (.base .bxSi)) ∧
    dec [0x8B, 0x1E, 0x82, 0x0D] = .ok (.movRmReg .toReg .word .bx (.direct 3458)) ∧
    dec [0x89, 0x8F, 0x00, 0x80] = .ok (.movRmReg .toRm .word .cx (.disp16 .bx 0x8000)) := by decide
theorem test_decode_movImmRm :
    dec [0xC6, 0x03, 0x07] = .ok (.movImmRm (.irm 0) .byte (.base .bpDi) 7) ∧
    dec [0xC6, 0x06, 0x0F, 0x00, 0xFF] = .ok (.movImmRm (.irm 0) .byte (.direct 15) 255) ∧
    dec [0xC7, 0xF8, 0x01, 0x00] = .ok (.movImmRm (.irm 7) .word (.reg .ax) 1) := by decide
theorem test_decode_movImmReg :
    dec [0xB5, 0xF4] = .ok (.movImmReg .byte .ch 244) ∧
    dec [0xBA, 0x6C, 0x0F] = .ok (.movImmReg .word .dx 3948) := by decide
theorem test_decode_movMemAcc :
    dec [0xA0, 0xFB, 0x09] = .ok (.movMemAcc .byte 2555) ∧
    dec [0xA1, 0x34, 0x12] = .ok (.movMemAcc .word 4660) := by decide
theorem test_decode_movAccMem :
    dec [0xA2, 0x10, 0x00] = .ok (.movAccMem .byte 16) ∧
    dec [0xA3, 0x0F, 0x00] = .ok (.movAccMem .word 15) := by decide
theorem test_decode_addRmReg :
    dec [0x03, 0x18] = .ok (.addRmReg .toReg .word .bx (.base .bxSi)) ∧
    dec [0x02, 0x76, 0x04] = .ok (.addRmReg .toReg .byte .dh (.disp8 .bp 4)) := by decide
theorem test_decode_addImmRm :
    dec [0x81, 0xC4, 0x88, 0x01] = .ok (.addImmRm false .word (.reg .sp) 392) ∧
    dec [0x82, 0xC0, 0xFF] = .ok (.addImmRm true .byte (.reg .al) 255) ∧
    dec [0x81, 0x87, 0xE8, 0x03, 0x10, 0x27] = .ok (.addImmRm false .word (.disp16 .bx 1000) 10000) := by decide
theorem test_decode_addImmAcc :
    dec [0x05, 0xE8, 0x03] = .ok (.addImmAcc .word 1000) ∧ dec [0x04, 0xE2] = .ok (.addImmAcc .byte 226) := by decide
theorem test_decode_subRmReg :
    dec [0x2B, 0x2E, 0x00, 0x00] = .ok (.subRmReg .toReg .word .bp (.direct 0)) ∧
    dec [0x29, 0xD9] = .ok (.subRmReg .toRm .word .bx (.reg .cx)) := by decide
theorem test_decode_subImmRm :
    dec [0x83, 0x6E, 0x00, 0x0A] = .ok (.subImmRm true .word (.disp8 .bp 0) 10) ∧
    dec [0x80, 0x2F, 0x01] = .ok (.subImmRm false .byte (.base .bx) 1) := by decide
theorem test_decode_subImmAcc :
    dec [0x2D, 0xE8, 0x03] = .ok (.subImmAcc .word 1000) ∧ dec [0x2C, 0x09] = .ok (.subImmAcc .byte 9) := by decide
theorem test_decode_cmpRmReg :
    dec [0x38, 0xE0] = .ok (.cmpRmReg .toRm .byte .ah (.reg .al)) ∧
    dec [0x3B, 0xC3] = .ok (.cmpRmReg .toReg .word .ax (.reg .bx)) := by decide
theorem test_decode_cmpImmRm :
    dec [0x83, 0x3E, 0xE2, 0x12, 0x1D] = .ok (.cmpImmRm true .word (.direct 4834) 29) ∧
    dec [0x81, 0xFB, 0x00, 0x80] = .ok (.cmpImmRm false .word (.reg .bx) 32768) := by decide
theorem test_decode_cmpImmAcc :
    dec [0x3C, 0x05] = .ok (.cmpImmAcc .byte 5) ∧ dec [0x3D, 0x00, 0x01] = .ok (.cmpImmAcc .word 256) := by decide
theorem test_decode_jo_to_je :
    dec [0x70, 0x04] = .ok (.jo 4) ∧ dec [0x71, 0x04] = .ok (.jno 4) ∧ dec [0x72, 0x04] = .ok (.jb 4) ∧
    dec [0x73, 0x7F] = .ok (.jnb 0x7F) ∧ dec [0x74, 0xFE] = .ok (.je 0xFE) := by decide
theorem test_decode_jne_to_jns :
    dec [0x75, 0x02] = .ok (.jne 2) ∧ dec [0x76, 0x04] = .ok (.jbe 4) ∧ dec [0x77, 0x80] = .ok (.jnbe 0x80) ∧
    dec [0x78, 0x04] = .ok (.js 4) ∧ dec [0x79, 0x04] = .ok (.jns 4) := by decide
theorem test_decode_jp_to_jle :
    dec [0x7A, 0x04] = .ok (.jp 4) ∧ dec [0x7B, 0x04] = .ok (.jnp 4) ∧ dec [0x7C, 0x04] = .ok (.jl 4) ∧
    dec [0x7D, 0x04] = .ok (.jnl 4) ∧ dec [0x7E, 0x04] = .ok (.jle 4) := by decide
theorem test_decode_jnle_to_loopnz :
    dec [0x7F, 0xFD] = .ok (.jnle 0xFD) ∧ dec [0xE3, 0x00] = .ok (.jcxz 0) ∧ dec [0xE2, 0xFC] = .ok (.loop 0xFC) ∧
    dec [0xE1, 0xFC] = .ok (.loopz 0xFC) ∧ dec [0xE0, 0xFC] = .ok (.loopnz 0xFC) := by decide

/-- The nine address forms (worked example S8). -/
theorem test_decode_address_forms :
    dec [0x8B, 0x00] = .ok (.movRmReg .toReg .word .ax (.base .bxSi)) ∧
    dec [0x8B, 0x01] = .ok (.movRmReg .toReg .word .ax (.base .bxDi)) ∧
    dec [0x8B, 0x02] = .ok (.movRmReg .toReg .word .ax (.base .bpSi)) ∧
    dec [0x8B, 0x03] = .ok (.movRmReg .toReg .word .ax (.base .bpDi)) ∧
    dec [0x8B, 0x04] = .ok (.movRmReg .toReg .word .ax (.base .si)) ∧
    dec [0x8B, 0x05] = .ok (.movRmReg .toReg .word .ax (.base .di)) ∧
    dec [0x8B, 0x06, 0x34, 0x12] = .ok (.movRmReg .toReg .word .ax (.direct 4660)) ∧
    dec [0x8B, 0x07] = .ok (.movRmReg .toReg .word .ax (.base .bx)) ∧
    dec [0x8B, 0x46, 0x00] = .ok (.movRmReg .toReg .word .ax (.disp8 .bp 0)) := by decide

/-- The 16 register codes (30_encoding.md R56). -/
theorem test_register_table :
    [0, 1, 2, 3, 4, 5, 6, 7].map (fun k => regTab (BitVec.ofNat 3 k) .byte)
      = [Reg.al, .cl, .dl, .bl, .ah, .ch, .dh, .bh] ∧
    [0, 1, 2, 3, 4, 5, 6, 7].map (fun k => regTab (BitVec.ofNat 3 k) .word)
      = [Reg.ax, .cx, .dx, .bx, .sp, .bp, .si, .di] := by decide

/-- Section 5's decode faults. -/
theorem test_decode_faults :
    trapOf [0x90] = some (.unrecognizedOpcode, 0x90) ∧ trapOf [0x0F] = some (.unrecognizedOpcode, 0x0F) ∧
    trapOf [0x8C, 0xC0] = some (.unrecognizedOpcode, 0x8C) ∧
    trapOf [0x26, 0x8B, 0x07] = some (.unrecognizedOpcode, 0x26) ∧
    trapOf [0xF4] = some (.unrecognizedOpcode, 0xF4) ∧
    trapOf [0x80, 0xCB, 0x01] = some (.unsupportedSubop, 1) ∧ trapOf [0x80, 0xC8] = some (.unsupportedSubop, 1) := by
  decide
theorem test_decode_truncated :
    trapOf [0x75] = some (.truncated, 1) ∧ trapOf [0xB8, 0x05] = some (.truncated, 2) ∧
    trapOf [0x8B, 0x46] = some (.truncated, 2) ∧ trapOf [0x8B, 0x1E, 0x82] = some (.truncated, 3) ∧
    trapOf [0x81, 0xC4, 0x88] = some (.truncated, 3) ∧
    trapOf [0xC7, 0x85, 0x85, 0x03, 0x5B] = some (.truncated, 5) := by decide

/-- Listings of sections 2.1 to 2.3. -/
theorem test_listing_text :
    text (record (.movRmReg .toRm .word .cx (.disp16 .bx 0x8000)) 0) = "mov [bx-32768], cx" ∧
    text (record (.subImmRm true .word (.disp8 .bp 0) 10) 0) = "sub word [bp], 10" ∧
    text (record (.movImmRm (.irm 0) .word (.reg .ax) 4660) 0) = "mov ax, 4660" ∧
    text (record (.jnb 0x7F) 0) = "jnb +127" := by decide

/-- The opcode table's numbers: byte 0 lowest, but b0 in bits 15:8 in the three 16-bit rows (log 14). -/
theorem test_decodeTableWord :
    decodeTableWord 8 0x88 = some (.movRmReg .toRm .byte .al (.base .bxSi)) ∧
    decodeTableWord 8 0xB0 = some (.movImmReg .byte .al 0) ∧
    decodeTableWord 16 0x8000 = some (.addImmRm false .byte (.base .bxSi) 0) ∧
    decodeTableWord 16 0x8028 = some (.subImmRm false .byte (.base .bxSi) 0) ∧
    decodeTableWord 16 0x8038 = some (.cmpImmRm false .byte (.base .bxSi) 0) ∧
    decodeTableWord 8 0x75 = some (.jne 0) := by decide

/-! ### Single steps (95_test_vectors.md section 3) -/

theorem test_mov_rm_reg_byte :
    after { run [0x88, 0xE0] with regs := cells (a := 0x12FF) } (fun t => (t.regs.a, t.ip)) = some (0x1212, 2) := by
  decide
theorem test_mov_rm_reg_wraps :
    after { run [0x8B, 0x02] with regs := cells (bp := 0xFFF0) (si := 0x20), mem := bytesAt 0x10 [0x78, 0x56] }
      (fun t => t.regs.a) = some 0x5678 := by decide
theorem test_mov_imm_rm :
    after { run [0xC6, 0x07, 0x05] with regs := cells (b := 0x100), mem := bytesAt 0x101 [0x77] }
      (fun t => (t.dataByte 0x100, t.dataByte 0x101, t.ip)) = some (some 5, some 0x77, 3) := by decide
theorem test_mov_imm_rm_grp1_policy :
    after { run [0x80, 0xCB, 0x01] { Config.spec with grp1Other := .mov } with regs := cells (b := 0x1234) }
      (fun t => (t.regs.b, t.ip)) = some (0x1201, 3) := by decide
theorem test_mov_imm_reg :
    after { run [0xB4, 0x12] with regs := cells (a := 0xFF) } (fun t => t.regs.a) = some 0x12FF ∧
    after { run [0xB0, 0xAB] with regs := cells (a := 0x1234) } (fun t => t.regs.a) = some 0x12AB := by decide
theorem test_mov_mem_acc :
    after { run [0xA1, 0x34, 0x12] with mem := bytesAt 0x1234 [0xCD, 0xAB] } (fun t => t.regs.a) = some 0xABCD ∧
    after { run [0xA1, 0xFF, 0xFF] with mem := [(0, 0xBB), (0xFFFF, 0xAA)] } (fun t => t.regs.a) = some 0xBBAA := by
  decide
theorem test_mov_mem_acc_linear :
    after { run [0x8B, 0x41, 0xFF] { Config.spec with wordAtFFFF := .linear } with mem := [(0, 0x22), (0xFFFF, 0x11)] }
      (fun t => t.regs.a) = some 0x0011 := by decide
theorem test_mov_acc_mem :
    after { run [0xA3, 0x0F, 0x00] with regs := cells (a := 0xBEEF) } State.mem
      = some [(0x0F, 0xEF), (0x10, 0xBE)] := by decide

theorem test_add_rm_reg_keeps_flags :
    after { run [0x01, 0xC3] with regs := cells (a := 0xFFFF) (b := 1), zf := true, sf := true }
      (fun t => (t.regs.b, t.zf, t.sf)) = some (0, true, true) := by decide
theorem test_add_rm_reg_byte :
    after { run [0x00, 0xE0] with regs := cells (a := 0x80FF) } (fun t => t.regs.a) = some 0x807F := by decide
theorem test_add_imm_rm_sign_extended :
    after { run [0x83, 0xC6, 0xFE] with regs := cells (si := 5) } (fun t => t.regs.si) = some 3 := by decide
theorem test_add_imm_rm_memory :
    after { run [0x80, 0x07, 0x22] with regs := cells (b := 0x200), mem := bytesAt 0x200 [0xF0] } State.mem
      = some [(0x200, 0x12)] := by decide
theorem test_add_imm_acc :
    after { run [0x04, 0xE2] with regs := cells (a := 0x0120) } (fun t => t.regs.a) = some 0x0102 := by decide

theorem test_sub_rm_reg :
    after { run [0x29, 0xD9] with regs := cells (c := 5) (b := 7) } (fun t => (t.regs.c, t.zf, t.sf))
      = some (0xFFFE, false, true) := by decide
theorem test_sub_rm_reg_equal :
    after { run [0x29, 0xC0] with regs := cells (a := 0x1234), sf := true } (fun t => (t.regs.a, t.zf, t.sf))
      = some (0, true, false) := by decide
theorem test_sub_imm_rm_memory :
    after { run [0x83, 0x6E, 0x00, 0x0A] with regs := cells (bp := 0x200), mem := bytesAt 0x200 [0x0A] }
      (fun t => (t.mem, t.zf, t.sf)) = some ([], true, false) := by decide
theorem test_sub_imm_rm_sign_extended :
    after { run [0x83, 0xEA, 0xFF] with regs := cells (d := 10) } (fun t => (t.regs.d, t.zf, t.sf))
      = some (11, false, false) := by decide
theorem test_sub_imm_acc :
    after { run [0x2C, 0x07] with regs := cells (a := 5) } (fun t => (t.regs.a, t.zf, t.sf))
      = some (0x00FE, false, true) := by decide

theorem test_cmp_rm_reg :
    after { run [0x3B, 0xC3] with regs := cells (a := 9) (b := 4), zf := true } (fun t => (t.regs.a, t.zf, t.sf))
      = some (9, false, false) := by decide
theorem test_cmp_imm_rm :
    after { run [0x80, 0x3F, 0x22] with regs := cells (b := 0x300), mem := bytesAt 0x300 [0x10] }
      (fun t => (t.mem, t.zf, t.sf)) = some ([(0x300, 0x10)], false, true) := by decide
theorem test_cmp_imm_acc_msb8 :
    after { run [0x3C, 0x05] with regs := cells (a := 0x85) } (fun t => (t.zf, t.sf)) = some (false, true) ∧
    after { run [0x3C, 0x90] with regs := cells (a := 0x05) } (fun t => (t.zf, t.sf)) = some (false, false) := by decide
theorem test_cmp_imm_acc_bit15 :
    after { run [0x3C, 0x05] { Config.spec with byteSfRule := .bit15Zext } with regs := cells (a := 0x85) }
      (fun t => (t.zf, t.sf)) = some (false, false) ∧
    after { run [0x3C, 0x90] { Config.spec with byteSfRule := .bit15Zext } with regs := cells (a := 0x05) }
      (fun t => (t.zf, t.sf)) = some (false, true) := by decide

theorem test_jne :
    after (run [0x75, 0xFE]) State.ip = some 0 ∧
    after { run [0x75, 0xFA] with zf := true } State.ip = some 2 := by decide
theorem test_jne_out_of_range :
    after (run [0x75, 0xFA]) (fun t => (t.status, t.ip)) = some (⟨.faulted, .branchOutOfRange, 0, 0xFFFFFFFC⟩, 0) := by
  decide
theorem test_je :
    statusAfter { run [0x74, 0xFE] with zf := true } = some ⟨.faulted, .unimplementedBranch, 0, 0x74⟩ ∧
    after { run [0x74, 0xFE] (policy .fallthrough) with zf := true } State.ip = some 2 ∧
    after { run [0x74, 0xFE] (policy .arch8086) with zf := true } State.ip = some 0 := by decide
theorem test_jo : statusAfter (run [0x70, 0x00] (policy .arch8086)) = some ⟨.faulted, .unimplementedBranch, 0, 0x70⟩ := by
  decide
theorem test_js_jns :
    after { run [0x78, 0xFE] (policy .arch8086) with sf := true } State.ip = some 0 ∧
    after { run [0x79, 0xFE] (policy .arch8086) with sf := true } State.ip = some 2 := by decide
theorem test_jcxz :
    after (run [0xE3, 0xFE] (policy .arch8086)) (fun t => (t.regs.c, t.ip)) = some (0, 0) ∧
    after { run [0xE3, 0xFE] (policy .arch8086) with regs := cells (c := 1) } State.ip = some 2 := by decide
theorem test_loop :
    after (run [0xE2, 0xFE] (policy .arch8086)) (fun t => (t.regs.c, t.ip)) = some (0xFFFF, 0) ∧
    after { run [0xE2, 0xFE] (policy .arch8086) with regs := cells (c := 1) } (fun t => (t.regs.c, t.ip))
      = some (0, 2) ∧
    after { run [0xE2, 0xFE] (policy .fallthrough) with regs := cells (c := 1) } (fun t => (t.regs.c, t.ip))
      = some (1, 2) := by decide
theorem test_loop_out_of_range :
    after { run [0xE2, 0xFA] (policy .arch8086) with regs := cells (c := 5) } (fun t => (t.status, t.regs.c))
      = some (⟨.faulted, .branchOutOfRange, 0, 0xFFFFFFFC⟩, 5) := by decide
theorem test_loopz_loopnz :
    after { run [0xE1, 0xFE] (policy .arch8086) with regs := cells (c := 3), zf := true } (fun t => (t.regs.c, t.ip))
      = some (2, 0) ∧
    after { run [0xE0, 0xFE] (policy .arch8086) with regs := cells (c := 3), zf := true } (fun t => (t.regs.c, t.ip))
      = some (2, 2) := by decide

/-! ### The sequencer and RESET_POLICY = undefined (95_test_vectors.md sections 4, 5) -/

theorem test_empty_program_halts :
    after (run []) (fun t => (t.status.run, t.ip, t.out)) =
      some (.halted, 0, [(State.reset).finalDump]) := by decide
theorem test_decode_only :
    after ((State.reset).beginRun [0x75, 0xFE] .decodeOnly) (fun t => (t.ip, t.out))
      = some (2, [.listing "jne -2"]) := by decide
theorem test_trace_of_sub :
    after { run [0x83, 0xE9, 0x01] with regs := cells (c := 1) } State.out =
      some [.trace "sub cx, 1" (some ⟨.c, ⟨some 1, some 0⟩, ⟨some 0, some 0⟩⟩) none 0 3 (some [.Z])] := by decide
theorem test_fault_at_nonzero_address :
    after { run [0xB8, 0x05, 0x00, 0x8B, 0x46] with ip := 3 } State.status = some ⟨.faulted, .truncated, 3, 5⟩ := by
  decide
theorem test_undefined_reads :
    statusAfter (run [0x01, 0xC3] undef) = some ⟨.faulted, .uninitialisedRead, 0, 0x20002⟩ ∧
    statusAfter (run [0x75, 0x00] undef) = some ⟨.faulted, .uninitialisedRead, 0, 0x30000⟩ ∧
    (after (run [0xB0, 0x01, 0x89, 0xC3] undef) statusAfter)
      = some (some ⟨.faulted, .uninitialisedRead, 2, 0x20001⟩) ∧
    (after (run [0xBB, 0x00, 0x01, 0x8A, 0x07] undef) statusAfter)
      = some (some ⟨.faulted, .uninitialisedRead, 3, 0x10100⟩) := by decide

/-! ### Witnesses: states that meet the hypotheses of each statement -/

/-- A state with a value in every register byte, in both flags and in some data bytes, under
`RESET_POLICY = undefined`. -/
def valued (bytes : List Byte) (cfg : Config := undef) : State :=
  { run bytes cfg with
    regs := cells (a := 0x1234) (b := 0x0100) (c := 2)
    known := Cells.fill ⟨true, true⟩
    zfKnown := true
    sfKnown := true
    mem := [(0x0100, 5), (0x0101, 6)] }

/-- A program that is one byte too long for the default buffer. -/
def tooLong : List Byte := List.replicate (2 ^ 20 + 1) 0

theorem witness_StepKeepsInvariant :
    (valued [0x01, 0xC3]).Inv ∧ ∃ t, step (valued [0x01, 0xC3]) = .next t :=
  ⟨⟨by decide, by decide, .inl (by decide), rfl, by decide, by decide, fun h => absurd h (by decide)⟩, _, rfl⟩
theorem witness_BeginRunMeetsInvariant :
    (run [0x75, 0xFE]).cfg.wf ∧ Memory.wf .zero (run [0x75, 0xFE]).cfg.bufCap (run [0x75, 0xFE]).pb = true := by decide
theorem witness_RunStartsFromZeroState :
    (run [0x75]).cfg.resetPolicy = .zero ∧ ([0xB8, 0x05, 0x00] : List Byte).length ≤ (run [0x75]).cfg.bufCap := by decide
theorem witness_RunStartsWithNoValues :
    (valued []).cfg.resetPolicy = .undefined ∧ ([0xB8, 0x05, 0x00] : List Byte).length ≤ (valued []).cfg.bufCap := by
  decide
theorem witness_OversizedProgramRefused : (State.reset).cfg.bufCap < tooLong.length := by
  show 2 ^ 20 < (List.replicate (2 ^ 20 + 1) (0 : Byte)).length
  rw [List.length_replicate]
  exact Nat.lt_succ_self _
theorem witness_RunsAreIndependent :
    (run [0x75, 0xFE]).cfg = (State.reset).cfg ∧ (run [0x75, 0xFE]).pb ≠ (State.reset).pb := by decide
theorem witness_StepRunsDecodedInstruction :
    (run [0x75, 0xFE]).status.run = .running ∧ (run [0x75, 0xFE]).mode = .execute ∧
    (run [0x75, 0xFE]).ip ≠ (run [0x75, 0xFE]).n ∧
    decode (run [0x75, 0xFE]).cfg.grp1Other (run [0x75, 0xFE]).ip (run [0x75, 0xFE]).window = .ok (.jne 0xFE) := by
  decide
theorem witness_DecodeOnlyStepLists :
    let s := (State.reset).beginRun [0x75, 0xFE] .decodeOnly
    s.status.run = .running ∧ s.mode = .decodeOnly ∧ s.ip ≠ s.n ∧
      decode s.cfg.grp1Other s.ip s.window = .ok (.jne 0xFE) := by decide
theorem witness_DecodeFaultWritesOnlyStatus :
    let s := run [0x90]
    s.status.run = .running ∧ s.ip ≠ s.n ∧
      decode s.cfg.grp1Other s.ip s.window = .error ⟨.unrecognizedOpcode, 0x90⟩ := by decide
theorem witness_RunHaltsAtItsEnd :
    (run []).status.run = .running ∧ (run []).ip = (run []).n ∧ (run []).mode = .execute ∧
    ((State.reset).beginRun [] .decodeOnly).mode = .decodeOnly ∧ (run [] undef).hasValue (.regLo .a) = false ∧
    (run []).hasValue (.regHi .a) = true := by decide
theorem witness_NoStepAfterTheEnd :
    ((run []).halt).status.run = .halted ∧ ((run []).raise ⟨.truncated, 0⟩).status.run = .faulted := by decide
theorem witness_FaultingStepIsPrecise :
    (run [0x74, 0x00]).status.run = .running ∧
    ∃ t, step (run [0x74, 0x00]) = .next t ∧ t.status.run = .faulted := ⟨rfl, _, rfl, rfl⟩
theorem witness_StepKeepsModeAndProgram : ∃ t, step (run [0xB8, 0x05, 0x00]) = .next t := ⟨_, rfl⟩
/-- Both outcomes: to a target, and past the instruction (the decode is that of the witness above for
`StepRunsDecodedInstruction`; it does not read the flags). -/
theorem witness_CompletedStepAdvancesOrBranches :
    after (run [0x75, 0xFE]) (fun t => (t.status.run, t.ip)) = some (.running, 0) ∧
    after { run [0x75, 0xFE] with zf := true } (fun t => (t.status.run, t.ip)) = some (.running, 2) := by decide
/-- A register destination and a memory destination, `sub` and `cmp` and another operation, a jump, and a loop under
`arch8086` and under `fallthrough`. -/
theorem witness_CompletedStepEmitsOneTrace :
    (run [0x2C, 0x07]).decodeNext = .ok (.subImmAcc .byte 7) ∧
    (run [0x01, 0x07]).decodeNext = .ok (.addRmReg .toRm .word .ax (.base .bx)) ∧
    (run [0x3C, 0x00]).decodeNext = .ok (.cmpImmAcc .byte 0) ∧
    after (run [0x2C, 0x07]) (fun t => (t.status.run, t.out.length)) = some (.running, 1) ∧
    after (run [0x01, 0x07]) (fun t => (t.status.run, t.out)) =
      some (.running, [.trace "add [bx], ax" none (some ⟨0, 2, [some 0, some 0], [some 0, some 0]⟩) 0 2 none]) ∧
    after (run [0x3C, 0x00]) State.out = some [.trace "cmp al, 0" none none 0 2 (some [.Z])] ∧
    after (run [0x75, 0x00]) State.out = some [.trace "jne +0" none none 0 2 none] ∧
    after { run [0xE2, 0xFE] (policy .arch8086) with regs := cells (c := 0x0100) } State.out =
      some [.trace "loop -2" (some ⟨.c, ⟨some 0, some 1⟩, ⟨some 0xFF, some 0⟩⟩) none 0 0 none] ∧
    after (run [0xE2, 0xFE] (policy .fallthrough)) State.out = some [.trace "loop -2" none none 0 2 none] := by decide
theorem witness_ZeroPolicyNeverFaultsOnRead :
    (run [0x70, 0x00]).cfg.resetPolicy = .zero ∧ (run [0x70, 0x00]).status.run = .running ∧
    ∃ t, step (run [0x70, 0x00]) = .next t ∧ t.status.run = .faulted := ⟨rfl, rfl, _, rfl, rfl⟩
theorem witness_FetchWordRunsItsInstruction :
    decodeTableWord 16 0x8028 = some (.subImmRm false .byte (.base .bxSi) 0) := by decide
theorem witness_EncodeThenDecode :
    (Instr.addImmRm true .word (.disp16 .bp 0x8000) 0xFFFE).wf .fault = true ∧
    (Instr.movImmRm (.grp1 true 0b110) .word (.direct 0) 0xFF80).wf .mov = true := by decide
theorem witness_DecodeThenEncode : ∃ i, decode .mov 7 [0x83, 0xF6, 0x80, 0xAA] = .ok i ∧ i.size = 3 := ⟨_, rfl, rfl⟩
theorem witness_CutInstructionIsTruncated :
    (Instr.jne 0).wf .fault = true ∧ 0 < (Instr.jne 0).size ∧ 1 < (Instr.jne 0).size := by decide
/-- An unrecognised byte at each end of the list, and a recognised one whose decode faults. -/
theorem witness_UnrecognisedOpcodeFaults :
    (run [0x06]).status.run = .running ∧ (run [0x06]).ip < (run [0x06]).n ∧
    Unrecognised ((run [0x06]).pbByte 0) ∧ Unrecognised ((run [0xFF]).pbByte 0) ∧
    ¬ Unrecognised ((run [0x05]).pbByte 0) ∧
    decode .fault 0 (run [0x05]).window = .error ⟨.truncated, 1⟩ := by
  unfold Unrecognised; decide
theorem witness_OtherSubOperations :
    ((0x80 ≤ (0x80 : Byte).toNat ∧ (0x80 : Byte).toNat ≤ 0x83) ∧ (0x83 : Byte).toNat ≤ 0x83) ∧
    regField 0xCB = 0b001 ∧ regField 0xF3 = 0b110 ∧ (RM.reg .bl).wf .byte = true ∧ immWf false 1 .byte = true := by
  decide
theorem witness_RegWriteChangesOnlyTheView : viewCell .bl ≠ viewCell .ah := by decide
theorem witness_DataReadAfterWrite :
    (run []).cfg.wordAtFFFF = .wrap16 ∧ (run [] { Config.spec with wordAtFFFF := .linear }).cfg.wordAtFFFF = .linear ∧
    ((0xFFFF : Word).toNat + 1) % 65536 = 0 ∧ (5 : Nat) ≠ (0xFFFF : Word).toNat := by decide
theorem witness_AluAddWraps :
    (255 : Word).toNat < 256 ∧ (1 : Word).toNat < 256 ∧ (aluAdd .byte 255 1).toNat = 0 := by decide
theorem witness_AluSubWraps : (0 : Word).toNat < 256 ∧ (aluSub .byte 0 255).toNat = 1 ∧
    aluSub .word 0 1 = aluSub .word 0xFFFF 0 := by decide
theorem witness_SubFlagsOfOperands :
    (0x85 : Word).toNat < 256 ∧ (5 : Word).toNat < 256 ∧ subSf .msb8 .byte 0x85 5 = true ∧
    subSf .bit15Zext .byte 0x85 5 = false := by decide

/-- The reads of instruction i at s all have values, and there is at least one. -/
def readsHaveValues (reads : State → Instruction → List Loc) (s : State) (i : Instr) : Bool :=
  (reads s (record i s.ip)).all s.hasValue && !(reads s (record i s.ip)).isEmpty

theorem witness_MovFormsComplete :
    readsHaveValues State.movReads (valued []) (.movRmReg .toReg .word .ax (.base .bx)) = true ∧
    readsHaveValues State.movReads (valued []) (.movImmRm (.irm 0) .byte (.disp8 .bx 0x7F) 1) = true ∧
    (∀ l ∈ (valued []).movReads (record (.movImmReg .byte .ch 1) 0), (valued []).hasValue l = true) ∧
    readsHaveValues State.movReads (valued []) (.movMemAcc .word 0x0100) = true ∧
    readsHaveValues State.movReads (valued []) (.movAccMem .word 0xFFFF) = true := by decide
theorem witness_AddFormsComplete :
    readsHaveValues State.aluReads (valued []) (.addRmReg .toRm .word .ax (.base .bx)) = true ∧
    readsHaveValues State.aluReads (valued []) (.addImmRm true .word (.direct 0x0100) 0xFFFE) = true ∧
    readsHaveValues State.aluReads (valued []) (.addImmAcc .byte 0xE2) = true := by decide
theorem witness_SubFormsComplete :
    readsHaveValues State.aluReads (valued []) (.subRmReg .toReg .byte .dh (.disp16 .bxSi 1)) = true ∧
    readsHaveValues State.aluReads (valued []) (.subImmRm false .byte (.reg .ch) 1) = true ∧
    readsHaveValues State.aluReads (valued []) (.subImmAcc .word 1000) = true := by decide
theorem witness_CmpFormsComplete :
    readsHaveValues State.aluReads (valued []) (.cmpRmReg .toRm .word .ax (.base .bx)) = true ∧
    readsHaveValues State.aluReads (valued []) (.cmpImmRm true .word (.base .bx) 29) = true ∧
    readsHaveValues State.aluReads (valued []) (.cmpImmAcc .word 256) = true := by decide
/-- A `mov` and an `add`: in the `add` the destination's address bytes have values and its old value has not. -/
theorem witness_ReadOfNoValueFaults :
    (run [] undef).movReads (record (.movRmReg .toRm .word .ax (.reg .bx)) 0) = [] ++ Loc.regLo .a :: [.regHi .a] ∧
    (run [] undef).hasValue (.regLo .a) = false ∧
    (valued []).aluReads (record (.addRmReg .toRm .byte .al (.disp8 .bx 2)) 0) =
      [.regLo .b, .regHi .b] ++ Loc.data 0x0102 :: [.regLo .a] ∧
    (∀ x ∈ [Loc.regLo .b, .regHi .b], (valued []).hasValue x = true) ∧
    (valued []).hasValue (.data 0x0102) = false := by decide
theorem witness_OnlySubAndCmpWriteFlags :
    (record (.addImmAcc .byte 1) 0).op ≠ .sub ∧ (record (.addImmAcc .byte 1) 0).op ≠ .cmp ∧
    ∃ t, exec (.addImmAcc .byte 1) (valued []) = .next t := ⟨by decide, by decide, _, rfl⟩
/-- A cell that is not the destination's, a data byte outside the destination, a `cmp`, and a loop under `arch8086`. -/
theorem witness_OnlyTheDestinationChanges :
    (record (.subRmReg .toRm .word .ax (.base .bx)) 0).dst = .mem (.base .bx) 0 ∧
    0x0102 ∉ (valued []).accessAddrs .word ((valued []).ea (.base .bx) 0) ∧
    (record (.movImmReg .byte .ah 1) 0).dst = .reg .ah ∧ viewCell .ah ≠ .b ∧ viewPart .ah = .high ∧
    (record (.movImmReg .byte .al 1) 0).dst = .reg .al ∧ viewPart .al = .low ∧
    (∃ t, exec (.movImmReg .byte .ah 1) (valued []) = .next t) ∧
    (record (.cmpImmAcc .byte 1) 0).op = .cmp ∧ (valued [] undefArch).cfg.branchExec = .arch8086 ∧
    (record (.loop 0) 0).op = .loop :=
  ⟨by decide, by decide, by decide, by decide, by decide, by decide, by decide, ⟨_, rfl⟩, by decide, by decide,
    by decide⟩

/-- Targets 0 and n are in range, -1 and n + 1 are not. -/
theorem witness_JneBranches :
    let s := valued [0x75, 0xFE]
    s.hasValue .zf = true ∧ s.zf = false ∧ TargetInRange s 0xFE ∧ TargetInRange s 0x00 ∧
      ¬ TargetInRange s 0xFD ∧ ¬ TargetInRange s 0x01 ∧
      (State.hasValue { s with zf := true } .zf = true) ∧ (run [0x75, 0xFE] undef).hasValue .zf = false := by
  unfold TargetInRange; decide
theorem witness_OtherBranchesFaultByDefault : (run []).cfg.branchExec = .fault ∧
    (flaglessBranches ++ decidableBranches).length = 19 := by decide
theorem witness_OtherBranchesFallThrough : (run [] (policy .fallthrough)).cfg.branchExec = .fallthrough ∧
    (flaglessBranches ++ decidableBranches).map (fun p => p.1 5) =
      [.jo 5, .jno 5, .jb 5, .jnb 5, .jbe 5, .jnbe 5, .jp 5, .jnp 5, .jl 5, .jnl 5, .jle 5, .jnle 5,
        .je 5, .js 5, .jns 5, .jcxz 5, .loop 5, .loopz 5, .loopnz 5] := by decide
theorem witness_FlaglessBranchesFaultUnderArch : (run [] (policy .arch8086)).cfg.branchExec = .arch8086 ∧
    flaglessBranches.length = 12 := by decide
/-- Every clause's hypotheses, with the branch taken to target 0 and to target n, taken out of range, and not taken. -/
theorem witness_FlagBranchesUnderArch :
    let s := valued [0x74, 0xFE] undefArch
    s.cfg.branchExec = .arch8086 ∧ s.hasValue .zf = true ∧ s.hasValue .sf = true ∧
      s.hasValue (.regLo .c) = true ∧ s.hasValue (.regHi .c) = true ∧
      TargetInRange s 0xFE ∧ TargetInRange s 0x00 ∧ ¬ TargetInRange s 0xFD ∧ ¬ TargetInRange s 0x01 ∧
      s.zf = false ∧ (!s.sf) = true ∧ decide (s.regRead .cx = 0) = false := by
  unfold TargetInRange; decide
/-- cx at 0, 1 and 2 before the decrement, both values of ZF, targets 0 and n in range, -1 and n + 1 out of range. -/
theorem witness_LoopsUnderArch :
    let s := valued [0xE2, 0xFE] undefArch
    s.cfg.branchExec = .arch8086 ∧ s.hasValue (.regLo .c) = true ∧ s.hasValue (.regHi .c) = true ∧
      s.hasValue .zf = true ∧ decide (s.regRead .cx ≠ 1) = true ∧
      decide (({ s with regs := cells (c := 1) } : State).regRead .cx ≠ 1) = false ∧
      decide (({ s with regs := cells } : State).regRead .cx ≠ 1) = true ∧
      s.zf = false ∧ State.hasValue { s with zf := true } .zf = true ∧
      TargetInRange s 0xFE ∧ TargetInRange s 0x00 ∧ ¬ TargetInRange s 0xFD ∧ ¬ TargetInRange s 0x01 := by
  unfold TargetInRange; decide
theorem witness_BranchReadOfNoValueFaults :
    let s := run [] undefArch
    s.cfg.branchExec = .arch8086 ∧ s.hasValue .zf = false ∧ s.hasValue .sf = false ∧
      s.hasValue (.regLo .c) = false ∧
      (s.regWrite .cl 1).hasValue (.regLo .c) = true ∧ (s.regWrite .cl 1).hasValue (.regHi .c) = false ∧
      (s.regWrite .cx 1).hasValue (.regLo .c) = true ∧ (s.regWrite .cx 1).hasValue (.regHi .c) = true ∧
      (s.regWrite .cx 1).hasValue .zf = false := by decide

theorem witness_RecordOfEachForm :
    (Instr.movRmReg, Op.mov) ∈ rmRegForms ∧ (Instr.cmpImmRm, Op.cmp) ∈ grp1Forms ∧
    (Instr.subImmAcc, Op.sub) ∈ immAccForms ∧ (Instr.loopnz, Op.loopnz) ∈ jumpForms := by
  simp [rmRegForms, grp1Forms, immAccForms, jumpForms]
/-- Records that no bytes decode to: a source that cannot be read, then a destination that cannot be written or read. -/
theorem witness_ReadOpOfEachKind :
    Operand.readable .none = false ∧ Operand.writable (.reg .ax) = true ∧ Operand.readable (.imm 5) = true ∧
    Operand.readable (.rel 5) = false := by decide
theorem witness_WriteOpOfEachKind :
    Operand.writable (.imm 5) = false ∧ (run []).status.code ≠ .unsupportedOperand ∧
    ∃ t, exec (.jo 0) (run []) = .next t ∧ t.status.code = .unimplementedBranch := ⟨rfl, by decide, _, rfl, rfl⟩

/-- d = 0 makes the r/m operand the destination and d = 1 the register (30_encoding.md R58; 95_test_vectors.md: 29 D9,
2B 2E 00 00). -/
theorem test_record_direction :
    (record (.subRmReg .toRm .word .bx (.reg .cx)) 0).dst = .reg .cx ∧
    (record (.subRmReg .toRm .word .bx (.reg .cx)) 0).src = .reg .bx ∧
    (record (.subRmReg .toReg .word .bp (.direct 0)) 0).dst = .reg .bp ∧
    (record (.subRmReg .toReg .word .bp (.direct 0)) 0).src = .mem .direct 0 := by decide

end Sys2Proof.Tests
end

section
/-! The bits of a byte view (00_scope.md R10). -/

namespace Sys2Proof

theorem zext16_getLsbD (b : Byte) (j : Nat) : (zext16 b).getLsbD j = b.getLsbD j := by
  rw [zext16, BitVec.getLsbD_setWidth]
  by_cases hj : j < 16
  · simp [hj]
  · simp [hj, BitVec.getLsbD_of_ge b j (by omega)]

theorem loByte_getLsbD (v : Word) (j : Nat) : (loByte v).getLsbD j = (decide (j < 8) && v.getLsbD j) := by
  simp [loByte]

theorem hiByte_getLsbD (v : Word) (j : Nat) : (hiByte v).getLsbD j = (decide (j < 8) && v.getLsbD (j + 8)) := by
  simp [hiByte, Nat.add_comm]

end Sys2Proof
end

section
/-! An instruction lies inside the bytes it was decoded from, and so ends at or before n (30_encoding.md R50, R66). -/

namespace Sys2Proof.Machine

/-- Whatever a sub-decoder answers without a fault has this property. -/
def Yields {α : Type} (P : α → Prop) (e : Except Trap α) : Prop := ∀ a, e = .ok a → P a

theorem Yields.ok {α : Type} {P : α → Prop} {a : α} (h : P a) : Yields P (.ok a) := by
  rintro _ ⟨⟩
  exact h

theorem Yields.error {α : Type} {P : α → Prop} (x : Trap) : Yields P (.error x) := nofun

theorem Yields.bind {α β : Type} {Q : α → Prop} {P : β → Prop} {e : Except Trap α} {f : α → Except Trap β}
    (he : Yields Q e) (hf : ∀ a, Q a → Yields P (f a)) : Yields P (e >>= f) := by
  intro b hb
  cases e with
  | error x => cases hb
  | ok a => exact hf a (he a rfl) b hb

theorem Yields.ite {α : Type} {P : α → Prop} {c : Prop} [Decidable c] {a b : Except Trap α} (ha : Yields P a)
    (hb : Yields P b) : Yields P (if c then a else b) := by
  by_cases h : c
  · rwa [if_pos h]
  · rwa [if_neg h]

theorem fetchByte_inside (ip : Nat) (bs : List Byte) (k : Nat) :
    Yields (fun _ => k + 1 ≤ bs.length) (fetchByte ip bs k) := by
  intro b hb
  exact (List.getElem?_eq_some_iff.1 (fetchByte_ok ip bs k b hb)).1

theorem fetchWord_inside (ip : Nat) (bs : List Byte) (k : Nat) :
    Yields (fun _ => k + 2 ≤ bs.length) (fetchWord ip bs k) :=
  (fetchByte_inside ip bs k).bind fun _ _ => (fetchByte_inside ip bs (k + 1)).bind fun _ h => .ok h

theorem decRM_inside (ip : Nat) (bs : List Byte) (m : Byte) (w : Width) (h : 2 ≤ bs.length) :
    Yields (fun rm => 2 + rm.dispBytes ≤ bs.length) (decRM ip bs m w) :=
  .ite (.ok h) <| .ite
    (.ite ((fetchWord_inside ip bs 2).bind fun _ h2 => .ok h2) (.ok h)) <| .ite
    ((fetchByte_inside ip bs 2).bind fun _ h1 => .ok h1)
    ((fetchWord_inside ip bs 2).bind fun _ h2 => .ok h2)

theorem decImm_inside (ip : Nat) (bs : List Byte) (k : Nat) (s : Bool) (w : Width) :
    Yields (fun _ => k + immBytes s w ≤ bs.length) (decImm ip bs k s w) := by
  cases w with
  | byte => exact (fetchByte_inside ip bs k).bind fun _ h => .ok h
  | word =>
    cases s with
    | false => exact fetchWord_inside ip bs k
    | true => exact (fetchByte_inside ip bs k).bind fun _ h => .ok h

/-- The instruction that an entry of the jump/loop table selects has two bytes. -/
def JumpsOfTwo (o : Option (Byte → Instr)) : Prop := ∀ mk, o = some mk → ∀ r, (mk r).size = 2

theorem JumpsOfTwo.ite {c : Prop} [Decidable c] {mk : Byte → Instr} {o : Option (Byte → Instr)}
    (h : ∀ r, (mk r).size = 2) (ho : JumpsOfTwo o) : JumpsOfTwo (if c then some mk else o) := by
  by_cases hc : c
  · rw [if_pos hc]
    rintro _ ⟨⟩
    exact h
  · rwa [if_neg hc]

/-- Every entry of the jump/loop table is an instruction of two bytes (30_encoding.md R65, R67). -/
theorem jtab_size (b0 : Byte) : JumpsOfTwo (jtab b0) := by
  unfold jtab
  iterate 20 refine .ite (fun _ => rfl) ?_
  nofun

/-- The instruction lies inside the bytes it is decoded from. -/
abbrev Inside (bs : List Byte) (i : Instr) : Prop := i.size ≤ bs.length

theorem decRmReg_inside (mk : Dir → Width → Reg → RM → Instr) (d : Dir) (w : Width) (ip : Nat) (bs : List Byte)
    (size : ∀ reg rm, (mk d w reg rm).size = 2 + rm.dispBytes) : Yields (Inside bs) (decRmReg mk d w ip bs) :=
  (fetchByte_inside ip bs 1).bind fun m h1 => (decRM_inside ip bs m w h1).bind fun rm h2 =>
    .ok ((size _ rm).trans_le h2)

theorem decMovImmRm_inside (w : Width) (ip : Nat) (bs : List Byte) : Yields (Inside bs) (decMovImmRm w ip bs) :=
  (fetchByte_inside ip bs 1).bind fun m h1 => (decRM_inside ip bs m w h1).bind fun rm _ =>
    (decImm_inside ip bs (2 + rm.dispBytes) false w).bind fun _ h3 => .ok h3

/-- Every instruction of group 1 has the length of R66. -/
theorem grp1Op_size (p : Grp1OtherPolicy) (s : Bool) (sub : BitVec 3) :
    Yields (fun mk => ∀ w rm imm, (mk w rm imm).size = 2 + rm.dispBytes + immBytes s w) (grp1Op p s sub) := by
  refine .ite (.ok fun _ _ _ => rfl) <| .ite (.ok fun _ _ _ => rfl) <| .ite (.ok fun _ _ _ => rfl) ?_
  cases p with
  | fault => exact .error _
  | mov => exact .ok fun _ _ _ => rfl

theorem decGrp1_inside (p : Grp1OtherPolicy) (s : Bool) (w : Width) (ip : Nat) (bs : List Byte) :
    Yields (Inside bs) (decGrp1 p s w ip bs) :=
  (fetchByte_inside ip bs 1).bind fun m h1 => (grp1Op_size p s (regField m)).bind fun _ size =>
    (decRM_inside ip bs m w h1).bind fun rm _ =>
      (decImm_inside ip bs (2 + rm.dispBytes) s w).bind fun _ h3 => .ok ((size w rm _).trans_le h3)

theorem decAccMem_inside (mk : Width → Word → Instr) (w : Width) (ip : Nat) (bs : List Byte)
    (size : ∀ a, (mk w a).size = 3) : Yields (Inside bs) (decAccMem mk w ip bs) :=
  (fetchWord_inside ip bs 1).bind fun a h => .ok ((size a).trans_le h)

theorem decImmAcc_inside (mk : Width → Word → Instr) (w : Width) (ip : Nat) (bs : List Byte)
    (size : ∀ imm, (mk w imm).size = 1 + immBytes false w) : Yields (Inside bs) (decImmAcc mk w ip bs) :=
  (decImm_inside ip bs 1 false w).bind fun imm h => .ok ((size imm).trans_le h)

theorem decImmReg_inside (w : Width) (code : BitVec 3) (ip : Nat) (bs : List Byte) :
    Yields (Inside bs) (decImmReg w code ip bs) :=
  (decImm_inside ip bs 1 false w).bind fun _ h => .ok h

theorem decFamily_inside (p : Grp1OtherPolicy) (b0 : Byte) (ip : Nat) (bs : List Byte) :
    Yields (Inside bs) (decFamily p b0 ip bs) :=
  .ite (decMovImmRm_inside _ ip bs) <|
  .ite (decAccMem_inside _ _ ip bs fun _ => rfl) <| .ite (decAccMem_inside _ _ ip bs fun _ => rfl) <|
  .ite (decImmAcc_inside _ _ ip bs fun _ => rfl) <| .ite (decImmAcc_inside _ _ ip bs fun _ => rfl) <|
  .ite (decImmAcc_inside _ _ ip bs fun _ => rfl) <|
  .ite (decRmReg_inside _ _ _ ip bs fun _ _ => rfl) <| .ite (decRmReg_inside _ _ _ ip bs fun _ _ => rfl) <|
  .ite (decRmReg_inside _ _ _ ip bs fun _ _ => rfl) <| .ite (decRmReg_inside _ _ _ ip bs fun _ _ => rfl) <|
  .ite (decGrp1_inside p _ _ ip bs) <| .ite (decImmReg_inside _ _ ip bs) (.error _)

/-- The decoder never reads past the bytes it is given. -/
theorem decode_inside (p : Grp1OtherPolicy) (ip : Nat) (bs : List Byte) : Yields (Inside bs) (decode p ip bs) := by
  refine (fetchByte_inside ip bs 0).bind fun b0 _ => ?_
  cases hj : jtab b0 with
  | some mk => exact (fetchByte_inside ip bs 1).bind fun r h => .ok ((jtab_size b0 mk hj r).trans_le h)
  | none => exact decFamily_inside p b0 ip bs

/-- The instruction at `ip` ends at or before n. -/
theorem State.decodeNext_end_le (s : State) (i : Instr) (hip : s.ip ≤ s.n) (h : s.decodeNext = .ok i) :
    s.ip + i.size ≤ s.n := by
  have hin : i.size ≤ s.window.length := decode_inside _ _ _ i h
  rw [State.window_length] at hin
  omega

end Sys2Proof.Machine
end

section
/-! What an execution and a step leave alone, over all instructions (10_state.md R17, R21, R23, R25, R30). -/

namespace Sys2Proof.Machine

/-! ### The parts no completed execution writes -/

theorem Fixed.advance {s t : State} (f : Fixed s t) (j : Nat) : Fixed s (t.advance j) :=
  ⟨f.cfg, f.pb, f.n, f.mode, f.status, f.out⟩

theorem Fixed.setFlags {s t : State} (f : Fixed s t) (z v : Bool) : Fixed s (t.setFlags z v) :=
  ⟨f.cfg, f.pb, f.n, f.mode, f.status, f.out⟩

theorem Fixed.refl (s : State) : Fixed s s := ⟨rfl, rfl, rfl, rfl, rfl, rfl⟩

/-- An execution raises its fault, or leaves all that `Fixed` names. -/
theorem ExecCase.fault_or_fixed {i : Instr} {s t : State} (c : ExecCase i s t) :
    (∃ x : Trap, t = s.raise x ∧ x.code ≠ .none) ∨ Fixed s t := by
  cases c with
  | fault x e code =>
    refine .inl ⟨x, e, ?_⟩
    obtain ⟨hc, -⟩ | hc | hc := code <;> simp [hc]
  | move _ v _ e => exact .inr (e ▸ (s.writeOp_rest _ _ v).fixed.advance _)
  | sub _ v z f _ e => exact .inr (e ▸ ((s.writeOp_rest _ _ v).fixed.setFlags z f).advance _)
  | cmp _ z f e => exact .inr (e ▸ ((Fixed.refl s).setFlags z f).advance _)
  | jump _ _ u upd j e =>
    obtain rfl | ⟨v, rfl, -, -⟩ := upd <;> exact .inr (e ▸ ⟨rfl, rfl, rfl, rfl, rfl, rfl⟩)

/-- The parts that only the host sets: mode latch, program buffer, n, parameters. -/
def HostPartsKept (s t : State) : Prop := t.mode = s.mode ∧ t.pb = s.pb ∧ t.n = s.n ∧ t.cfg = s.cfg

theorem ExecCase.hostPartsKept {i : Instr} {s t : State} (c : ExecCase i s t) : HostPartsKept s t := by
  obtain ⟨x, rfl, -⟩ | f := c.fault_or_fixed
  · exact ⟨rfl, rfl, rfl, rfl⟩
  · exact ⟨f.mode, f.pb, f.n, f.cfg⟩

/-- The end of a run halts, and in execute mode also emits the final dump. -/
theorem State.finish_eq (s : State) : s.finish = s.halt ∨ s.finish = s.halt.emit s.finalDump := by
  unfold State.finish
  cases s.mode with
  | decodeOnly => exact .inl rfl
  | execute => exact .inr rfl

theorem StepCase.hostPartsKept {s t : State} (c : StepCase s t) : HostPartsKept s t := by
  cases c with
  | finish _ e =>
    obtain h | h := s.finish_eq <;> rw [e, h] <;> exact ⟨rfl, rfl, rfl, rfl⟩
  | decodeFault _ x _ _ e => exact e ▸ ⟨rfl, rfl, rfl, rfl⟩
  | listed _ i _ _ e => exact e ▸ ⟨rfl, rfl, rfl, rfl⟩
  | executed _ i _ _ u _ c e =>
    have hu := c.hostPartsKept
    obtain h | ⟨r, h⟩ := s.traced_eq i u <;> rw [e, h] <;> exact hu

theorem State.beginRun_mode (s : State) (bytes : List Byte) (mode : Mode) : (s.beginRun bytes mode).mode = mode := by
  unfold State.beginRun State.startRun
  split <;> rfl

/-- Settles O14, case by case over what a step can do. -/
theorem stepKeepsModeAndProgram : Obligations.StepKeepsModeAndProgram :=
  ⟨fun s t h => (step_cases s t h).2.hostPartsKept, State.beginRun_mode⟩

/-! ### The flags (10_state.md R21) -/

theorem FlagsKept.advance {s t : State} (f : FlagsKept s t) (j : Nat) : FlagsKept s (t.advance j) :=
  ⟨f.zf, f.sf, f.zfKnown, f.sfKnown⟩

/-- Settles O38, case by case over what `exec` can leave. -/
theorem onlySubAndCmpWriteFlags : Obligations.OnlySubAndCmpWriteFlags := by
  intro i s t hsub hcmp h
  cases exec_cases i s t h with
  | fault x e => exact e ▸ ⟨rfl, rfl, rfl, rfl⟩
  | move _ v _ e => exact e ▸ (s.writeOp_rest _ _ v).flags.advance _
  | sub op => exact absurd op hsub
  | cmp op => exact absurd op hcmp
  | jump _ _ u upd j e =>
    obtain rfl | ⟨v, rfl, -, -⟩ := upd <;> exact e ▸ ⟨rfl, rfl, rfl, rfl⟩

/-! ### Cells and data bytes (10_state.md R17, R30) -/

/-- The destination of a jump or loop is its relative displacement (30_encoding.md R65). -/
theorem record_jump_dst (i : Instr) (a : Nat) (h : (record i a).op ≠ .mov ∧ (record i a).op ≠ .add ∧
    (record i a).op ≠ .sub ∧ (record i a).op ≠ .cmp) : ∃ rel, (record i a).dst = relOperand rel := by
  cases i with
  | movRmReg d | addRmReg d | subRmReg d | cmpRmReg d => cases d <;> simp [record, rmRegRecord] at h
  | movImmRm | movImmReg | movMemAcc | movAccMem | addImmRm | addImmAcc | subImmRm | subImmAcc | cmpImmRm
  | cmpImmAcc => simp [record] at h
  | _ => exact ⟨_, rfl⟩

/-- What an execution changes in the cells and in data memory. -/
inductive Footprint (i : Instr) (s t : State) : Prop where
  | nothing (cells : CellsKept s t) (mem : MemKept s t)
  | destination (op : (record i s.ip).op ≠ .cmp) (v : Word)
      (written : Written s t (record i s.ip).wide (record i s.ip).dst v)
  | counter (down : CountsDown s.cfg.branchExec (record i s.ip).op)
      (dst : ∃ rel, (record i s.ip).dst = relOperand rel) (cells : CellsKeptBut s t .c) (mem : MemKept s t)

theorem exec_footprint (i : Instr) (s t : State) (h : exec i s = .next t) : Footprint i s t := by
  cases exec_cases i s t h with
  | fault x e => exact .nothing (e ▸ fun _ => ⟨rfl, rfl⟩) (e ▸ fun _ => rfl)
  | move op v kind e =>
    refine .destination (by obtain op | op := op <;> simp [op]) v ?_
    exact e ▸ (s.writeOp_written _ _ v kind).congr rfl rfl rfl rfl
  | sub op v z f kind e =>
    exact .destination (by simp [op]) v (e ▸ (s.writeOp_written _ _ v kind).congr rfl rfl rfl rfl)
  | cmp _ z f e => exact .nothing (e ▸ fun _ => ⟨rfl, rfl⟩) (e ▸ fun _ => rfl)
  | jump op _ u upd j e =>
    obtain rfl | ⟨v, rfl, hp, hl⟩ := upd
    · exact .nothing (e ▸ fun _ => ⟨rfl, rfl⟩) (e ▸ fun _ => rfl)
    · refine .counter ⟨hp, hl⟩ (record_jump_dst i s.ip op) ?_ (e ▸ fun _ => rfl)
      intro k hk
      simp [e, CellKept, hk]

theorem CellKept.low {s t : State} {k : Cell} (h : CellKept s t k) : LowKept s t k :=
  ⟨congrArg loByte h.1, congrArg ByteMarks.lo h.2⟩

theorem CellKept.high {s t : State} {k : Cell} (h : CellKept s t k) : HighKept s t k :=
  ⟨congrArg hiByte h.1, congrArg ByteMarks.hi h.2⟩

/-- A write leaves the cells its destination does not name. -/
theorem Written.cellKept {s t : State} {w : Width} {dst : Operand} {v : Word} (h : Written s t w dst v) (k : Cell)
    (hk : ∀ r, dst = .reg r → viewCell r ≠ k) : CellKept s t k := by
  cases dst with
  | reg r => exact h.2.1 k (hk r rfl).symm
  | mem sel d => exact h.2.2 k
  | imm _ | rel _ | none => exact h.elim

/-- A write of a byte view leaves the other byte of its cell. -/
theorem Written.otherByteKept {s t : State} {w : Width} {r : Reg} {v : Word} (h : Written s t w (.reg r) v) :
    (viewPart r = .low → HighKept s t (viewCell r)) ∧ (viewPart r = .high → LowKept s t (viewCell r)) := by
  obtain ⟨hv, -, -⟩ := h
  unfold ViewWritten at hv
  constructor <;> intro hp <;> rw [hp] at hv <;> exact hv.2

/-- A write leaves the data bytes its destination does not name. -/
theorem Written.dataByteKept {s t : State} {w : Width} {dst : Operand} {v : Word} (h : Written s t w dst v) (a : Nat)
    (ha : ∀ sel d, dst = .mem sel d → a ∉ s.accessAddrs w (s.ea sel d)) : t.dataByte a = s.dataByte a := by
  cases dst with
  | reg r => exact h.2.2 a
  | mem sel d => exact h.2.1 a (ha sel d rfl)
  | imm _ | rel _ | none => exact h.elim

/-- Settles O39, over the footprint of an execution. -/
theorem onlyTheDestinationChanges : Obligations.OnlyTheDestinationChanges := by
  intro i s t h
  cases exec_footprint i s t h with
  | nothing cells mem =>
    exact ⟨fun k _ _ => cells k, fun r _ => ⟨fun _ => (cells _).high, fun _ => (cells _).low⟩, fun a _ => mem a,
      fun _ => ⟨cells, mem⟩⟩
  | destination op v written =>
    refine ⟨fun k hk _ => written.cellKept k hk, fun r hr => ?_, written.dataByteKept, fun hop => absurd hop op⟩
    rw [hr] at written
    exact written.otherByteKept
  | counter down dst cells mem =>
    obtain ⟨rel, hdst⟩ := dst
    refine ⟨fun k _ hk => cells k fun hc => hk ⟨hc, down⟩, fun r hr => ?_, fun a _ => mem a, fun hop => ?_⟩
    · cases hdst.symm.trans hr
    · obtain ⟨-, hl⟩ := down
      simp [hop] at hl

/-! ### Reads of a register view (10_state.md R16) -/

/-- Settles O26, by the part of its cell that the view names: each part is a byte's bits, or the whole cell. -/
theorem regReadSelectsTheView : Obligations.RegReadSelectsTheView := by
  intro s r j
  unfold State.regRead
  cases viewPart r with
  | full => rfl
  | low => rw [zext16_getLsbD, loByte_getLsbD]
  | high => rw [zext16_getLsbD, hiByte_getLsbD]

end Sys2Proof.Machine
end

section
/-! The trace of a completed step (40_sequencer.md R92). -/

namespace Sys2Proof.Machine

/-- A step inside the program, in execute mode, executes the instruction that the decoder gives. -/
theorem step_executes {s t : State} {i : Instr} (hmode : s.mode = .execute) (hip : s.ip ≠ s.n)
    (hd : s.decodeNext = .ok i) (h : step s = .next t) : ∃ u, ExecCase i s u ∧ t = s.traced i u := by
  cases (step_cases s t h).2 with
  | finish atEnd => exact absurd atEnd hip
  | decodeFault _ x d => cases hd.symm.trans d
  | listed _ j _ mode => cases hmode.symm.trans mode
  | executed _ j d _ u _ c e =>
    cases hd.symm.trans d
    exact ⟨u, c, e⟩

/-- The trace does not depend on the records emitted so far. -/
theorem traceOf_emit (I : Instruction) (s u : State) (r : Record) : traceOf I s (u.emit r) = traceOf I s u := rfl

/-- A completed execution appends its trace and nothing else to the records. -/
theorem ExecCase.traced_out {i : Instr} {s u : State} (c : ExecCase i s u)
    (h : (s.traced i u).status.run ≠ .faulted) :
    (s.traced i u).out = s.out ++ [traceOf (record i s.ip) s (s.traced i u)] := by
  rw [State.traced_status] at h
  obtain ⟨x, rfl, -⟩ | f := c.fault_or_fixed
  · exact absurd rfl h
  · rw [s.traced_completed i u h, traceOf_emit, State.emit_out, f.out]

/-- Settles O16: the fields are those of `traceOf`, by the operand the instruction writes. -/
theorem completedStepEmitsOneTrace : Obligations.CompletedStepEmitsOneTrace := by
  intro s t i _ hmode hip hd hstep hrun
  obtain ⟨u, c, rfl⟩ := step_executes hmode hip hd hstep
  refine ⟨_, _, _, c.traced_out hrun, fun hf => if_pos hf, fun hf => if_neg (by tauto), fun hop => ?_, fun hc => ?_,
    fun hop hc => ?_⟩
  · rw [writtenOperand_move _ _ hop]
    refine ⟨fun r hr => ?_, fun sel d hm => ?_⟩
    · rw [hr]
      exact ⟨regChange_shown s _ r, rfl⟩
    · rw [hm]
      exact ⟨rfl, rfl⟩
  · rw [writtenOperand_countsDown _ _ hc]
    exact ⟨regChange_shown s _ .cx, rfl⟩
  · rw [writtenOperand_none _ _ hop hc]
    exact ⟨rfl, rfl⟩

end Sys2Proof.Machine
end

section
/-! The invariant of a run: the start of a run establishes it and every step keeps it. -/

namespace Sys2Proof.Machine

/-! ### What the updates of a step keep -/

theorem State.Inv.fits_of_running {s : State} (h : s.Inv) (hr : s.status.run = .running) : s.n ≤ s.cfg.bufCap := by
  have hs := h.status
  rw [State.StatusOk, hr] at hs
  exact h.fits.resolve_right (by simp [hs, Status.initial])

theorem State.Inv.raise {s : State} (h : s.Inv) (hr : s.status.run = .running) (x : Trap) (hx : x.code ≠ .none) :
    (s.raise x).Inv where
  cfg := h.cfg
  ip := h.ip
  fits := .inl (h.fits_of_running hr)
  status := ⟨hx, rfl⟩
  pb := h.pb
  mem := h.mem
  known := h.known

theorem State.Inv.halt {s : State} (h : s.Inv) (hr : s.status.run = .running) (hn : s.ip = s.n) : s.halt.Inv where
  cfg := h.cfg
  ip := h.ip
  fits := .inl (h.fits_of_running hr)
  status := by
    have hs := h.status
    rw [State.StatusOk, hr] at hs
    exact ⟨by simp [hs, Status.initial], hn⟩
  pb := h.pb
  mem := h.mem
  known := h.known

theorem State.Inv.emit {s : State} (h : s.Inv) (r : Record) : (s.emit r).Inv where
  cfg := h.cfg
  ip := h.ip
  fits := h.fits
  status := h.status
  pb := h.pb
  mem := h.mem
  known := h.known

/-- Under `RESET_POLICY = zero` every register byte and flag has a value (10_state.md R28). -/
def State.AllKnown (s : State) : Prop :=
  s.known = Cells.fill ⟨true, true⟩ ∧ s.zfKnown = true ∧ s.sfKnown = true

/-- While the run goes on, the invariant is about `ip`, data memory and value marks alone. -/
theorem State.Inv.of_fixed {s t : State} (h : s.Inv) (hr : s.status.run = .running) (f : Fixed s t) (hip : t.ip ≤ s.n)
    (hm : Memory.wf s.cfg.resetPolicy s.cfg.memSize t.mem = true)
    (hk : s.cfg.resetPolicy = .zero → t.AllKnown) : t.Inv where
  cfg := f.cfg ▸ h.cfg
  ip := f.n ▸ hip
  fits := f.n ▸ f.cfg ▸ .inl (h.fits_of_running hr)
  status := by
    have hs := h.status
    rw [State.StatusOk, hr] at hs
    rw [State.StatusOk, f.status, hr]
    exact hs
  pb := by rw [f.cfg, f.pb]; exact h.pb
  mem := by rw [f.cfg]; exact hm
  known := by rw [f.cfg]; exact hk

/-! ### What an execution keeps -/

/-- An operand write keeps the canonical form of data memory. -/
theorem State.writeOp_wf (s : State) (w : Width) (op : Operand) (v : Word) (hsz : 2 ^ 20 ≤ s.cfg.memSize)
    (h : Memory.wf s.cfg.resetPolicy s.cfg.memSize s.mem = true) :
    Memory.wf s.cfg.resetPolicy s.cfg.memSize (s.writeOp w op v).mem = true := by
  cases op with
  | reg r =>
    obtain ⟨x, m, e, -⟩ := s.regWrite_eq r v
    rw [State.writeOp, e]
    exact h
  | mem sel d => exact s.memWrite_wf w _ v hsz h
  | imm _ | rel _ | none => exact h

theorem State.setCell_allKnown {s : State} (h : s.AllKnown) (k : Cell) (v : Word) :
    (s.setCell k v ⟨true, true⟩).AllKnown := by
  obtain ⟨hk, hz, hs⟩ := h
  exact ⟨by simp [hk], hz, hs⟩

theorem State.writeOp_allKnown {s : State} (h : s.AllKnown) (w : Width) (op : Operand) (v : Word) :
    (s.writeOp w op v).AllKnown := by
  cases op with
  | reg r =>
    obtain ⟨x, m, e, hm⟩ := s.regWrite_eq r v
    obtain rfl := hm (by rw [h.1, Cells.get_fill])
    rw [State.writeOp, e]
    exact s.setCell_allKnown h _ x
  | mem sel d =>
    rw [State.writeOp, State.memWrite_eq]
    exact h
  | imm _ | rel _ | none => exact h

/-- An execution leaves `ip` in 0..n (40_sequencer.md R86, R88). -/
theorem ExecCase.ip_le {i : Instr} {s t : State} (c : ExecCase i s t) (hend : s.ip + i.size ≤ s.n) :
    t.ip ≤ s.n := by
  cases c with
  | fault x e => rw [e, State.raise_ip]; omega
  | move _ v _ e => rw [e, State.advance_ip, (s.writeOp_rest _ _ v).ip]; exact hend
  | sub _ v z f _ e => rw [e, State.advance_ip, State.setFlags_ip, (s.writeOp_rest _ _ v).ip]; exact hend
  | cmp _ z f e => rw [e]; exact hend
  | jump _ size u _ j e target =>
    rw [e, State.setIp_ip]
    obtain rfl | ⟨rel, -, hin, rfl⟩ := target
    · omega
    · obtain ⟨h0, hn⟩ := hin
      omega

theorem ExecCase.mem_wf {i : Instr} {s t : State} (c : ExecCase i s t) (hsz : 2 ^ 20 ≤ s.cfg.memSize)
    (h : Memory.wf s.cfg.resetPolicy s.cfg.memSize s.mem = true) :
    Memory.wf s.cfg.resetPolicy s.cfg.memSize t.mem = true := by
  cases c with
  | fault x e => exact e ▸ h
  | move _ v _ e => exact e ▸ s.writeOp_wf _ _ v hsz h
  | sub _ v z f _ e => exact e ▸ s.writeOp_wf _ _ v hsz h
  | cmp _ z f e => exact e ▸ h
  | jump _ _ u upd j e => obtain rfl | ⟨v, rfl, -⟩ := upd <;> exact e ▸ h

theorem ExecCase.allKnown {i : Instr} {s t : State} (c : ExecCase i s t) (h : s.AllKnown) : t.AllKnown := by
  cases c with
  | fault x e => exact e ▸ h
  | move _ v _ e => exact e ▸ s.writeOp_allKnown h _ _ v
  | sub _ v z f _ e => exact e ▸ ⟨(s.writeOp_allKnown h _ _ v).1, rfl, rfl⟩
  | cmp _ z f e => exact e ▸ ⟨h.1, rfl, rfl⟩
  | jump _ _ u upd j e =>
    obtain rfl | ⟨v, rfl, -⟩ := upd
    · exact e ▸ h
    · exact e ▸ s.setCell_allKnown h .c v

/-- An execution of an instruction that ends at or before n keeps the invariant. -/
theorem ExecCase.inv {i : Instr} {s t : State} (c : ExecCase i s t) (h : s.Inv) (hr : s.status.run = .running)
    (hend : s.ip + i.size ≤ s.n) : t.Inv := by
  obtain ⟨x, rfl, hx⟩ | f := c.fault_or_fixed
  · exact h.raise hr x hx
  · obtain ⟨-, hsz, -⟩ := h.cfg
    exact h.of_fixed hr f (c.ip_le hend) (c.mem_wf hsz h.mem) fun hz => c.allKnown (h.known hz)

theorem DecodeCode.ne_none {x : Trap} (h : DecodeCode x) : x.code ≠ .none := by
  obtain h | h | h := h <;> simp [h]

/-- Settles O2: the invariant over each thing a step can do. -/
theorem stepKeepsInvariant : Obligations.StepKeepsInvariant := by
  intro s t h hstep
  obtain ⟨hr, c⟩ := step_cases s t hstep
  cases c with
  | finish atEnd e =>
    have hh := h.halt hr atEnd
    obtain hf | hf := s.finish_eq <;> rw [e, hf]
    · exact hh
    · exact hh.emit _
  | decodeFault _ x _ code e => exact e ▸ h.raise hr x code.ne_none
  | listed _ i d _ e =>
    exact e ▸ (h.emit _).of_fixed hr ((Fixed.refl _).advance i.size) (s.decodeNext_end_le i h.ip d) h.mem h.known
  | executed _ i d _ u _ c e =>
    have hu := c.inv h hr (s.decodeNext_end_le i h.ip d)
    obtain ht | ⟨r, ht⟩ := s.traced_eq i u <;> rw [e, ht]
    · exact hu
    · exact hu.emit r

/-! ### The start of a run -/

theorem State.initial_allKnown (cfg : Config) (pb : Memory) (n : Nat) (mode : Mode) (h : cfg.resetPolicy = .zero) :
    (State.initial cfg pb n mode).AllKnown := by
  simp [State.AllKnown, State.initial, h]

/-- Starting a run from legal parameters and a canonical program buffer, whatever n. -/
theorem State.startRun_inv (s : State) (hcfg : s.cfg.wf) (hpb : Memory.wf .zero s.cfg.bufCap s.pb = true) :
    s.startRun.Inv := by
  have known := State.initial_allKnown s.cfg s.pb s.n s.mode
  unfold State.startRun
  split
  · exact ⟨hcfg, Nat.zero_le _, .inr rfl, ⟨nofun, rfl⟩, hpb, rfl, known⟩
  · next hn => exact ⟨hcfg, Nat.zero_le _, .inl (Nat.le_of_not_lt hn), rfl, hpb, rfl, known⟩

/-- Settles O3: loading keeps the program buffer canonical, of a too large program the part that fits. -/
theorem beginRunMeetsInvariant : Obligations.BeginRunMeetsInvariant := by
  intro s bytes mode hcfg hpb
  refine State.startRun_inv _ hcfg (Memory.wf_writeList .zero s.cfg.bufCap _ s.pb 0 ?_ hpb)
  rw [Nat.zero_add]
  exact List.length_take_le _ _

end Sys2Proof.Machine
end

section
/-! The bytes a decoder looks at, and the families that the opcode byte selects (30_encoding.md R51, R54). -/

namespace Sys2Proof.Machine

/-! ### Bytes of a program -/

/-- The bytes `l` stand in `bs` at index k. -/
def HoldsAt (bs : List Byte) (k : Nat) (l : List Byte) : Prop := l <+: bs.drop k

theorem holdsAt_singleton (bs : List Byte) (k : Nat) (b : Byte) : HoldsAt bs k [b] ↔ bs[k]? = some b := by
  rw [HoldsAt, List.prefix_iff_getElem?]
  simp

theorem holdsAt_append (bs : List Byte) (k : Nat) (l l' : List Byte) :
    HoldsAt bs k (l ++ l') ↔ HoldsAt bs k l ∧ HoldsAt bs (k + l.length) l' := by
  unfold HoldsAt
  rw [← List.drop_drop]
  constructor
  · rintro ⟨t, h⟩
    rw [← h, List.append_assoc, List.drop_left]
    exact ⟨List.prefix_append _ _, List.prefix_append _ _⟩
  · rintro ⟨⟨t, h⟩, h'⟩
    rw [← h, List.drop_left] at h'
    rw [← h]
    exact (List.prefix_append_right_inj l).2 h'

theorem holdsAt_cons (bs : List Byte) (k : Nat) (b : Byte) (l : List Byte) :
    HoldsAt bs k (b :: l) ↔ HoldsAt bs k [b] ∧ HoldsAt bs (k + 1) l := holdsAt_append bs k [b] l

/-- The ModRM byte has these fields (30_encoding.md R57). -/
theorem modrm_of_fields {m : Byte} {mod : BitVec 2} {rm : BitVec 3} (hmod : modField m = mod) (hrm : rmField m = rm) :
    modrm mod (regField m) rm = m := by
  rw [← hmod, ← hrm, modrm_fields]

/-! ### The opcode byte (30_encoding.md R51) -/

/-- What `Decode()` does once it has fetched byte 0 (R54). -/
def dispatch (p : Grp1OtherPolicy) (ip : Nat) (b0 : Byte) (bs : List Byte) : Except Trap Instr :=
  match jtab b0 with
  | some mk => decJump mk ip bs
  | none => decFamily p b0 ip bs

theorem decode_eq_dispatch (p : Grp1OtherPolicy) (ip : Nat) (bs : List Byte) :
    decode p ip bs = (fetchByte ip bs 0 >>= fun b0 => dispatch p ip b0 bs) := rfl

theorem opcode7_of_top7 {b0 : Byte} {o : BitVec 7} (h : top7 b0 = o) : opcode7 o (opW b0) = b0 := by
  subst h
  revert b0
  decide

theorem opcode6_of_top6 {b0 : Byte} {o : BitVec 6} (h : top6 b0 = o) : opcode6 o (opS b0) (opW b0) = b0 := by
  subst h
  revert b0
  decide

theorem opD_bit (b0 : Byte) : (opD b0).bit = opS b0 := by
  unfold opD opS
  cases b0.getLsbD 1 <;> rfl

theorem opcodeIReg_of_top4 {b0 : Byte} (h : top4 b0 = 0b1011) :
    opcodeIReg (Width.ofBit (b0.getLsbD 3)) (b0.extractLsb' 0 3) = b0 := by
  revert b0
  decide

/-- What an entry of the jump/loop table selects encodes to this opcode byte and the displacement. -/
def JumpsFrom (b0 : Byte) (o : Option (Byte → Instr)) : Prop :=
  ∀ mk, o = some mk → ∀ r, encode (mk r) = [b0, r] ∧ ∀ p, (mk r).wf p = true

theorem JumpsFrom.ite {b0 c : Byte} {mk : Byte → Instr} {o : Option (Byte → Instr)}
    (h : ∀ r, encode (mk r) = [c, r] ∧ ∀ p, (mk r).wf p = true) (ho : JumpsFrom b0 o) :
    JumpsFrom b0 (if b0 = c then some mk else o) := by
  by_cases hc : b0 = c
  · subst hc
    rw [if_pos rfl]
    rintro _ ⟨⟩
    exact h
  · rwa [if_neg hc]

/-- The jump/loop table read back (30_encoding.md R65, R67). -/
theorem jtab_encode (b0 : Byte) : JumpsFrom b0 (jtab b0) := by
  unfold jtab
  iterate 20 refine .ite (fun _ => ⟨rfl, fun _ => rfl⟩) ?_
  nofun

/-- The top n bits of a byte. -/
theorem topBits_eq_iff {k n : Nat} (h : k + n = 8) (b0 : Byte) (o : BitVec n) :
    b0.extractLsb' k n = o ↔ b0.toNat / 2 ^ k = o.toNat := by
  have hlt : b0.toNat / 2 ^ k < 2 ^ n := Nat.div_lt_of_lt_mul (by rw [← pow_add, h]; exact b0.isLt)
  rw [← BitVec.toNat_inj, BitVec.extractLsb'_toNat, Nat.shiftRight_eq_div_pow, Nat.mod_eq_of_lt hlt]

theorem top7_eq_iff (b0 : Byte) (o : BitVec 7) : top7 b0 = o ↔ b0.toNat / 2 = o.toNat := topBits_eq_iff rfl b0 o

theorem top6_eq_iff (b0 : Byte) (o : BitVec 6) : top6 b0 = o ↔ b0.toNat / 4 = o.toNat := topBits_eq_iff rfl b0 o

theorem top4_eq_iff (b0 : Byte) (o : BitVec 4) : top4 b0 = o ↔ b0.toNat / 16 = o.toNat := topBits_eq_iff rfl b0 o

/-- The bytes outside the jump/loop table (30_encoding.md R67). -/
theorem jtab_eq_none_iff (b0 : Byte) :
    jtab b0 = none ↔ ¬(0x70 ≤ b0.toNat ∧ b0.toNat ≤ 0x7F) ∧ ¬(0xE0 ≤ b0.toNat ∧ b0.toNat ≤ 0xE3) := by
  rw [← Option.isNone_iff_eq_none]
  revert b0
  decide

/-- The list of R74 is what the table and the family patterns of R51 leave. -/
theorem unrecognised_iff (b0 : Byte) : Unrecognised b0 ↔
    jtab b0 = none ∧
    (top7 b0 ≠ 0b1100011 ∧ top7 b0 ≠ 0b1010000 ∧ top7 b0 ≠ 0b1010001 ∧ top7 b0 ≠ 0b0000010 ∧ top7 b0 ≠ 0b0010110 ∧
      top7 b0 ≠ 0b0011110) ∧
    (top6 b0 ≠ 0b100010 ∧ top6 b0 ≠ 0b000000 ∧ top6 b0 ≠ 0b001010 ∧ top6 b0 ≠ 0b001110 ∧ top6 b0 ≠ 0b100000) ∧
    top4 b0 ≠ 0b1011 := by
  have := b0.isLt
  simp only [Unrecognised, jtab_eq_none_iff, ne_eq, top7_eq_iff, top6_eq_iff, top4_eq_iff, BitVec.reduceToNat]
  omega

end Sys2Proof.Machine
end

section
/-! Whatever bytes decode re-encode to themselves, and which opcode bytes are unrecognised (30_encoding.md R69, R74). -/

namespace Sys2Proof.Machine

/-! ### What a sub-decoder answers -/

/-- The answer has this property, or the fault is one of those raised past the opcode byte (60_exceptions.md R141). -/
def Answers {α : Type} (P : α → Prop) : Except Trap α → Prop
  | .ok a => P a
  | .error x => x.code = .truncated ∨ x.code = .unsupportedSubop

theorem Answers.bind {α β : Type} {Q : α → Prop} {P : β → Prop} {e : Except Trap α} {f : α → Except Trap β}
    (he : Answers Q e) (hf : ∀ a, Q a → Answers P (f a)) : Answers P (e >>= f) := by
  cases e with
  | error x => exact he
  | ok a => exact hf a he

theorem Answers.mono {α : Type} {P Q : α → Prop} {e : Except Trap α} (he : Answers P e) (h : ∀ a, P a → Q a) :
    Answers Q e := by
  cases e with
  | error x => exact he
  | ok a => exact h a he

theorem Answers.ite {α : Type} {P : α → Prop} {c : Prop} [Decidable c] {a b : Except Trap α} (ha : c → Answers P a)
    (hb : ¬c → Answers P b) : Answers P (if c then a else b) := by
  by_cases h : c
  · rw [if_pos h]; exact ha h
  · rw [if_neg h]; exact hb h

/-! ### Fields -/

theorem fetchByte_answers (ip : Nat) (bs : List Byte) (k : Nat) :
    Answers (fun b => HoldsAt bs k [b]) (fetchByte ip bs k) := by
  unfold fetchByte
  cases h : bs[k]? with
  | none => exact .inl rfl
  | some b => exact (holdsAt_singleton bs k b).2 h

theorem fetchWord_answers (ip : Nat) (bs : List Byte) (k : Nat) :
    Answers (fun v => HoldsAt bs k (wordBytes v)) (fetchWord ip bs k) :=
  (fetchByte_answers ip bs k).bind fun lo hlo => (fetchByte_answers ip bs (k + 1)).bind fun hi hhi => by
    show HoldsAt bs k (wordBytes (joinBytes hi lo))
    rw [wordBytes, loByte_joinBytes, hiByte_joinBytes, holdsAt_cons]
    exact ⟨hlo, hhi⟩

/-- The r/m operand and its bytes, ModRM byte included (30_encoding.md R57, R68). -/
theorem decRM_answers (ip : Nat) (bs : List Byte) (m : Byte) (w : Width) (hm : HoldsAt bs 1 [m]) :
    Answers (fun rm => rm.wf w = true ∧ HoldsAt bs 1 (rm.encode (regField m))) (decRM ip bs m w) := by
  have hcode : ∀ mod, modField m = mod → modrm mod (regField m) (rmField m) = m := fun _ h => modrm_of_fields h rfl
  refine .ite (fun h3 => ?_) fun h3 => .ite (fun h0 => .ite (fun h6 => ?_) fun h6 => ?_) fun h0 =>
    .ite (fun h1 => ?_) fun h1 => ?_
  · refine ⟨by simp [RM.wf], ?_⟩
    rwa [RM.encode, code_regTab, hcode _ h3]
  · refine (fetchWord_answers ip bs 2).bind fun a ha => ⟨rfl, ?_⟩
    rw [RM.encode, modrm_of_fields h0 h6, holdsAt_cons]
    exact ⟨hm, ha⟩
  · refine ⟨?_, ?_⟩
    · have hb : eaTab (rmField m) ≠ .bp := fun e => h6 (by rw [← code_eaTab (rmField m), e]; rfl)
      simpa [RM.wf] using hb
    · rwa [RM.encode, code_eaTab, hcode _ h0]
  · refine (fetchByte_answers ip bs 2).bind fun d hd => ⟨rfl, ?_⟩
    rw [RM.encode, code_eaTab, hcode _ h1, holdsAt_cons]
    exact ⟨hm, hd⟩
  · refine (fetchWord_answers ip bs 2).bind fun d hd => ⟨rfl, ?_⟩
    have h2 : modField m = 0b10 := by
      generalize modField m = x at h0 h1 h3
      revert x
      decide
    rw [RM.encode, code_eaTab, hcode _ h2, holdsAt_cons]
    exact ⟨hm, hd⟩

theorem decImm_answers (ip : Nat) (bs : List Byte) (k : Nat) (s : Bool) (w : Width) :
    Answers (fun v => immWf s v w = true ∧ HoldsAt bs k (encodeImm s v w)) (decImm ip bs k s w) := by
  cases w with
  | byte => exact (fetchByte_answers ip bs k).bind fun v hv => ⟨by simp [immWf], by simpa [encodeImm] using hv⟩
  | word =>
    cases s with
    | false => exact (fetchWord_answers ip bs k).mono fun v hv => ⟨rfl, hv⟩
    | true => exact (fetchByte_answers ip bs k).bind fun v hv => ⟨by simp [immWf], by simpa [encodeImm] using hv⟩

/-- Every operation of group 1 encodes as format IRM-GRP1 with its sub-operation (30_encoding.md R60, R72). -/
theorem grp1Op_answers (p : Grp1OtherPolicy) (s : Bool) (sub : BitVec 3) :
    Answers (fun mk => ∀ w rm imm, encode (mk w rm imm) = encodeGrp1 s sub w rm imm ∧
      (rm.wf w = true → immWf s imm w = true → (mk w rm imm).wf p = true)) (grp1Op p s sub) := by
  refine .ite (fun h => ?_) fun h0 => .ite (fun h => ?_) fun h5 => .ite (fun h => ?_) fun h7 => ?_
  iterate 3
    subst h
    exact fun w rm imm => ⟨rfl, fun hrm himm => by simp [Instr.wf, hrm, himm]⟩
  cases p with
  | fault => exact .inr rfl
  | mov =>
    refine fun w rm imm => ⟨rfl, fun hrm himm => ?_⟩
    simpa [Instr.wf, MovImmEnc.wf, MovImmEnc.s, hrm, himm] using (⟨⟨h0, h5⟩, h7⟩ : (sub ≠ 0 ∧ sub ≠ 5) ∧ sub ≠ 7)

/-- An r/m operand and the immediate after it (30_encoding.md R49, D25). -/
theorem HoldsAt.rm_imm {bs : List Byte} {g : BitVec 3} {rm : RM} {l : List Byte} (hrm : HoldsAt bs 1 (rm.encode g))
    (hl : HoldsAt bs (2 + rm.dispBytes) l) : HoldsAt bs 1 (rm.encode g ++ l) := by
  rw [holdsAt_append, RM.encode_length, ← Nat.add_assoc]
  exact ⟨hrm, hl⟩

/-! ### Families -/

/-- The instruction is well-formed and its bytes stand at the start of `bs`. -/
def EncodedIn (p : Grp1OtherPolicy) (bs : List Byte) (i : Instr) : Prop := i.wf p = true ∧ HoldsAt bs 0 (encode i)

theorem EncodedIn.intro {p : Grp1OtherPolicy} {bs : List Byte} {i : Instr} {b0 : Byte} {l : List Byte}
    (wf : i.wf p = true) (enc : encode i = b0 :: l) (h0 : HoldsAt bs 0 [b0]) (hl : HoldsAt bs 1 l) :
    EncodedIn p bs i := by
  refine ⟨wf, ?_⟩
  rw [enc, holdsAt_cons]
  exact ⟨h0, hl⟩

section Families

variable {p : Grp1OtherPolicy} {b0 : Byte} {bs : List Byte} (h0 : HoldsAt bs 0 [b0]) (ip : Nat)
include h0

theorem decRmReg_answers {mk : Dir → Width → Reg → RM → Instr} {o : BitVec 6} {d : Dir} {w : Width}
    (hb : opcode6 o d.bit w = b0) (wf : ∀ reg rm, (mk d w reg rm).wf p = (reg.width == w && rm.wf w))
    (enc : ∀ reg rm, encode (mk d w reg rm) = encodeRmReg o d w reg rm) :
    Answers (EncodedIn p bs) (decRmReg mk d w ip bs) :=
  (fetchByte_answers ip bs 1).bind fun m hm => (decRM_answers ip bs m w hm).bind fun rm ⟨hwf, hrm⟩ =>
    .intro (by simp [wf, hwf]) (by rw [enc, encodeRmReg, hb, code_regTab]) h0 hrm

theorem decMovImmRm_answers {w : Width} (hb : opcode7 0b1100011 w = b0) :
    Answers (EncodedIn p bs) (decMovImmRm w ip bs) :=
  (fetchByte_answers ip bs 1).bind fun m hm => (decRM_answers ip bs m w hm).bind fun rm ⟨hwf, hrm⟩ =>
    (decImm_answers ip bs (2 + rm.dispBytes) false w).bind fun imm ⟨hiwf, himm⟩ =>
      .intro (by simp [Instr.wf, MovImmEnc.wf, MovImmEnc.s, hwf, hiwf]) (by rw [encode, hb]) h0 (hrm.rm_imm himm)

theorem decGrp1_answers {s : Bool} {w : Width} (hb : opcode6 0b100000 s w = b0) :
    Answers (EncodedIn p bs) (decGrp1 p s w ip bs) :=
  (fetchByte_answers ip bs 1).bind fun m hm => (grp1Op_answers p s (regField m)).bind fun _ hmk =>
    (decRM_answers ip bs m w hm).bind fun rm ⟨hwf, hrm⟩ =>
      (decImm_answers ip bs (2 + rm.dispBytes) s w).bind fun imm ⟨hiwf, himm⟩ =>
        .intro ((hmk w rm imm).2 hwf hiwf) (by rw [(hmk w rm imm).1, encodeGrp1, hb]) h0 (hrm.rm_imm himm)

theorem decAccMem_answers {mk : Width → Word → Instr} {o : BitVec 7} {w : Width} (hb : opcode7 o w = b0)
    (wf : ∀ a, (mk w a).wf p = true) (enc : ∀ a, encode (mk w a) = opcode7 o w :: wordBytes a) :
    Answers (EncodedIn p bs) (decAccMem mk w ip bs) :=
  (fetchWord_answers ip bs 1).bind fun a ha => .intro (wf a) (by rw [enc, hb]) h0 ha

theorem decImmAcc_answers {mk : Width → Word → Instr} {o : BitVec 7} {w : Width} (hb : opcode7 o w = b0)
    (wf : ∀ imm, (mk w imm).wf p = immWf false imm w)
    (enc : ∀ imm, encode (mk w imm) = opcode7 o w :: encodeImm false imm w) :
    Answers (EncodedIn p bs) (decImmAcc mk w ip bs) :=
  (decImm_answers ip bs 1 false w).bind fun imm ⟨hwf, himm⟩ =>
    .intro ((wf imm).trans hwf) (by rw [enc, hb]) h0 himm

theorem decImmReg_answers {w : Width} {code : BitVec 3} (hb : opcodeIReg w code = b0) :
    Answers (EncodedIn p bs) (decImmReg w code ip bs) :=
  (decImm_answers ip bs 1 false w).bind fun imm ⟨hwf, himm⟩ =>
    .intro (by simp [Instr.wf, hwf]) (by rw [encode, code_regTab, hb]) h0 himm

theorem decJump_answers {mk : Byte → Instr} (hmk : jtab b0 = some mk) : Answers (EncodedIn p bs) (decJump mk ip bs) :=
  (fetchByte_answers ip bs 1).bind fun r hr =>
    .intro ((jtab_encode b0 mk hmk r).2 p) (jtab_encode b0 mk hmk r).1 h0 hr

/-- A recognised opcode byte is past `UNRECOGNIZED_OPCODE`, and what it decodes to encodes back. -/
theorem dispatch_answers (hr : ¬ Unrecognised b0) : Answers (EncodedIn p bs) (dispatch p ip b0 bs) := by
  unfold dispatch
  cases hj : jtab b0 with
  | some mk => exact decJump_answers h0 ip hj
  | none =>
    have hd : ∀ {o}, top6 b0 = o → opcode6 o (opD b0).bit (opW b0) = b0 := fun h => by
      rw [opD_bit, opcode6_of_top6 h]
    exact .ite (fun h => decMovImmRm_answers h0 ip (opcode7_of_top7 h)) fun a1 =>
      .ite (fun h => decAccMem_answers h0 ip (opcode7_of_top7 h) (fun _ => rfl) fun _ => rfl) fun a2 =>
      .ite (fun h => decAccMem_answers h0 ip (opcode7_of_top7 h) (fun _ => rfl) fun _ => rfl) fun a3 =>
      .ite (fun h => decImmAcc_answers h0 ip (opcode7_of_top7 h) (fun _ => rfl) fun _ => rfl) fun a4 =>
      .ite (fun h => decImmAcc_answers h0 ip (opcode7_of_top7 h) (fun _ => rfl) fun _ => rfl) fun a5 =>
      .ite (fun h => decImmAcc_answers h0 ip (opcode7_of_top7 h) (fun _ => rfl) fun _ => rfl) fun a6 =>
      .ite (fun h => decRmReg_answers h0 ip (hd h) (fun _ _ => rfl) fun _ _ => rfl) fun b1 =>
      .ite (fun h => decRmReg_answers h0 ip (hd h) (fun _ _ => rfl) fun _ _ => rfl) fun b2 =>
      .ite (fun h => decRmReg_answers h0 ip (hd h) (fun _ _ => rfl) fun _ _ => rfl) fun b3 =>
      .ite (fun h => decRmReg_answers h0 ip (hd h) (fun _ _ => rfl) fun _ _ => rfl) fun b4 =>
      .ite (fun h => decGrp1_answers h0 ip (opcode6_of_top6 h)) fun b5 =>
      .ite (fun h => decImmReg_answers h0 ip (opcodeIReg_of_top4 h)) fun c1 =>
        absurd ((unrecognised_iff b0).2 ⟨hj, ⟨a1, a2, a3, a4, a5, a6⟩, ⟨b1, b2, b3, b4, b5⟩, c1⟩) hr

end Families

theorem dispatch_unrecognised (p : Grp1OtherPolicy) (ip : Nat) {b0 : Byte} (bs : List Byte) (h : Unrecognised b0) :
    dispatch p ip b0 bs = .error ⟨.unrecognizedOpcode, b0.setWidth 32⟩ := by
  obtain ⟨hj, ⟨a1, a2, a3, a4, a5, a6⟩, ⟨b1, b2, b3, b4, b5⟩, c1⟩ := (unrecognised_iff b0).1 h
  simp only [dispatch, hj, decFamily, a1, a2, a3, a4, a5, a6, b1, b2, b3, b4, b5, c1, if_false]

/-! ### Whole instructions -/

/-- Decoding is fetching byte 0 and then `dispatch`, when there is a byte 0. -/
theorem decode_of_byte (p : Grp1OtherPolicy) (ip : Nat) {bs : List Byte} {b0 : Byte} (h0 : bs[0]? = some b0) :
    decode p ip bs = dispatch p ip b0 bs := by
  rw [decode_eq_dispatch, fetchByte, h0]
  rfl

/-- What decodes is well-formed, and its encoding stands at the start of the bytes. -/
theorem encodedIn_of_decode {p : Grp1OtherPolicy} {ip : Nat} {bs : List Byte} {i : Instr}
    (h : decode p ip bs = .ok i) : EncodedIn p bs i := by
  cases h0 : bs[0]? with
  | none =>
    rw [decode_eq_dispatch, fetchByte, h0] at h
    cases h
  | some b0 =>
    rw [decode_of_byte p ip h0] at h
    by_cases hu : Unrecognised b0
    · rw [dispatch_unrecognised p ip bs hu] at h
      cases h
    · have := dispatch_answers (p := p) ((holdsAt_singleton bs 0 b0).2 h0) ip hu
      rwa [h] at this

/-- Settles O20: the encoding stands at the start of the bytes and has the instruction's size. -/
theorem decodeThenEncode : Obligations.DecodeThenEncode := by
  intro p ip bs i h
  obtain ⟨wf, hpre⟩ := encodedIn_of_decode h
  obtain ⟨hlen, hmin, hmax⟩ := Laws.EncodedSize.holds i
  refine ⟨wf, hmin, hmax, decode_inside p ip bs i h, ?_⟩
  rw [← hlen]
  exact List.prefix_iff_eq_take.1 hpre

/-! ### The unrecognised opcode bytes -/

theorem step_of_decode_error {s : State} {x : Trap} (hrun : s.status.run = .running) (hip : s.ip ≠ s.n)
    (h : s.decodeNext = .error x) : step s = .next (s.raise x) := by
  rw [step, hrun]
  show s.runningStep = _
  rw [State.runningStep, if_neg hip, h]

/-- Settles O22: `dispatch` on byte 0 of the bytes at `ip`. -/
theorem unrecognisedOpcodeFaults : Obligations.UnrecognisedOpcodeFaults := by
  intro s hrun hip
  have h0 : s.window[0]? = some (s.pbByte s.ip) := by
    rw [s.window_getElem?, if_pos (by simp only [maxLen]; omega), Nat.add_zero]
  have hd : s.decodeNext = dispatch s.cfg.grp1Other s.ip (s.pbByte s.ip) s.window := decode_of_byte _ _ h0
  refine ⟨fun hu => ?_, fun hu x hx hcode => ?_⟩
  · rw [dispatch_unrecognised _ _ _ hu] at hd
    exact step_of_decode_error hrun (by omega) hd
  · have := dispatch_answers (p := s.cfg.grp1Other) ((holdsAt_singleton _ 0 _).2 h0) s.ip hu
    rw [← hd, State.decodeNext, hx] at this
    simp [Answers, hcode] at this

end Sys2Proof.Machine
end

section
/-! A well-formed instruction decodes from its encoding, and cut short is `TRUNCATED` at the cut (30_encoding.md R50). -/

namespace Sys2Proof.Machine

/-! ### Decoding an encoding -/

section Families

variable {p : Grp1OtherPolicy} {ip : Nat} {rest : List Byte}

theorem decode_cons (b0 : Byte) (l : List Byte) : decode p ip (b0 :: l) = dispatch p ip b0 (b0 :: l) :=
  decode_of_byte p ip rfl

theorem decode_encodeRmReg {mk : Dir → Width → Reg → RM → Instr} {o : BitVec 6} {d : Dir} {w : Width} {reg : Reg}
    {rm : RM} (hd : ∀ bs, dispatch p ip (opcode6 o d.bit w) bs = decRmReg mk d w ip bs)
    (wf : (reg.width == w && rm.wf w) = true) :
    decode p ip (encodeRmReg o d w reg rm ++ rest) = .ok (mk d w reg rm) := by
  simp only [Bool.and_eq_true, beq_iff_eq] at wf
  obtain ⟨rfl, hrm⟩ := wf
  rw [encodeRmReg, List.cons_append, decode_cons, hd, decRmReg, fetch_modrm]
  simp [bind, Except.bind, pure, Except.pure, decRM_encode _ _ _ _ _ _ hrm, regTab_code]

theorem decode_encodeMovImm {x : BitVec 3} {w : Width} {rm : RM} {imm : Word} (hrm : rm.wf w = true)
    (himm : immWf false imm w = true) :
    decode p ip (encode (.movImmRm (.irm x) w rm imm) ++ rest) = .ok (.movImmRm (.irm x) w rm imm) := by
  have hd : ∀ bs, dispatch p ip (opcode7 0b1100011 w) bs = decMovImmRm w ip bs := fun _ => by cases w <;> rfl
  rw [encode, List.cons_append, List.append_assoc, decode_cons, hd, decMovImmRm, fetch_modrm]
  simp [bind, Except.bind, pure, Except.pure, decRM_encode _ _ _ _ _ _ hrm, decImm_after_rm _ _ _ _ _ _ _ _ himm]

theorem decode_encodeGrp1 {mk : Width → RM → Word → Instr} {s : Bool} {sub : BitVec 3} {w : Width} {rm : RM}
    {imm : Word} (hop : grp1Op p s sub = .ok mk) (wf : (rm.wf w && immWf s imm w) = true) :
    decode p ip (encodeGrp1 s sub w rm imm ++ rest) = .ok (mk w rm imm) := by
  have hd : ∀ bs, dispatch p ip (opcode6 0b100000 s w) bs = decGrp1 p s w ip bs := fun _ => by
    cases s <;> cases w <;> rfl
  rw [Bool.and_eq_true] at wf
  obtain ⟨hrm, himm⟩ := wf
  rw [encodeGrp1, List.cons_append, List.append_assoc, decode_cons, hd, decGrp1, fetch_modrm]
  simp [bind, Except.bind, pure, Except.pure, hop, decRM_encode _ _ _ _ _ _ hrm,
    decImm_after_rm _ _ _ _ _ _ _ _ himm]

theorem decImm_after_opcode (b0 : Byte) {s : Bool} {w : Width} {imm : Word} (himm : immWf s imm w = true) :
    decImm ip (b0 :: (encodeImm s imm w ++ rest)) 1 s w = .ok imm := decImm_encode ip [b0] s w imm rest himm

theorem decode_encodeImmReg {w : Width} {reg : Reg} {imm : Word} (wf : (reg.width == w && immWf false imm w) = true) :
    decode p ip (encode (.movImmReg w reg imm) ++ rest) = .ok (.movImmReg w reg imm) := by
  simp only [Bool.and_eq_true, beq_iff_eq] at wf
  obtain ⟨hw, himm⟩ := wf
  have hd : ∀ bs, dispatch p ip (opcodeIReg w reg.code) bs = decImmReg w reg.code ip bs := fun _ => by
    cases w <;> cases reg <;> rfl
  rw [encode, List.cons_append, decode_cons, hd, decImmReg, decImm_after_opcode _ himm, ← hw]
  exact congrArg (fun r => Except.ok (Instr.movImmReg _ r _)) (regTab_code reg)

theorem decode_encodeImmAcc {mk : Width → Word → Instr} {o : BitVec 7} {w : Width} {imm : Word}
    (hd : ∀ bs, dispatch p ip (opcode7 o w) bs = decImmAcc mk w ip bs) (himm : immWf false imm w = true) :
    decode p ip (opcode7 o w :: (encodeImm false imm w ++ rest)) = .ok (mk w imm) := by
  rw [decode_cons, hd, decImmAcc, decImm_after_opcode _ himm]
  rfl

theorem decode_encodeAccMem {mk : Width → Word → Instr} {o : BitVec 7} {w : Width} {a : Word}
    (hd : ∀ bs, dispatch p ip (opcode7 o w) bs = decAccMem mk w ip bs) :
    decode p ip (opcode7 o w :: (wordBytes a ++ rest)) = .ok (mk w a) := by
  have hw : fetchWord ip (opcode7 o w :: (wordBytes a ++ rest)) 1 = .ok a := fetchWord_append ip [_] a rest
  rw [decode_cons, hd, decAccMem, hw]
  rfl

end Families

/-- A well-formed instruction decodes from its encoding, whatever follows it. -/
theorem decode_encode (p : Grp1OtherPolicy) (ip : Nat) (i : Instr) (rest : List Byte) (h : i.wf p = true) :
    decode p ip (encode i ++ rest) = .ok i := by
  cases i with
  | movRmReg d w | addRmReg d w | subRmReg d w | cmpRmReg d w =>
    exact decode_encodeRmReg (fun _ => by cases d <;> cases w <;> rfl) h
  | movImmRm enc w rm imm =>
    simp only [Instr.wf, Bool.and_eq_true] at h
    obtain ⟨⟨henc, hrm⟩, himm⟩ := h
    cases enc with
    | irm x => exact decode_encodeMovImm hrm himm
    | grp1 s sub =>
      simp only [MovImmEnc.wf, Bool.and_eq_true, beq_iff_eq, bne_iff_ne] at henc
      obtain ⟨⟨⟨rfl, h0⟩, h5⟩, h7⟩ := henc
      exact decode_encodeGrp1 (by simp only [grp1Op, h0, h5, h7, if_false]) (by rw [hrm]; exact himm)
  | addImmRm | subImmRm | cmpImmRm => exact decode_encodeGrp1 rfl h
  | movImmReg => exact decode_encodeImmReg h
  | movMemAcc w | movAccMem w => exact decode_encodeAccMem (fun _ => by cases w <;> rfl)
  | addImmAcc w | subImmAcc w | cmpImmAcc w => exact decode_encodeImmAcc (fun _ => by cases w <;> rfl) h
  | _ => rfl

/-! ### Decoding a program that ends too soon -/

/-- The fault of an instruction at `ip` whose byte k lies at or past n (30_encoding.md R50). -/
def missingByte (ip k : Nat) : Trap := ⟨.truncated, BitVec.ofNat 32 (ip + k)⟩

/-- A sub-decoder whose first byte is at index j: on a program cut after k bytes it names byte k, or answers as if the
program had not been cut. -/
def CutFrom {α : Type} (ip j : Nat) (e : List Byte → Except Trap α) : Prop :=
  ∀ bs k, j ≤ k → k ≤ bs.length → e (bs.take k) = .error (missingByte ip k) ∨ e (bs.take k) = e bs

section Cut

variable {α β : Type} {ip j : Nat}

theorem CutFrom.const (e : Except Trap α) : CutFrom ip j fun _ => e := fun _ _ _ _ => .inr rfl

/-- What is read next starts where the bytes read so far end. -/
theorem CutFrom.bind {e : List Byte → Except Trap α} {f : α → List Byte → Except Trap β} {next : α → Nat}
    (he : CutFrom ip j e) (hin : ∀ bs, j ≤ bs.length → Yields (fun a => next a ≤ bs.length) (e bs))
    (hf : ∀ a, CutFrom ip (next a) (f a)) : CutFrom ip j fun bs => e bs >>= fun a => f a bs := by
  intro bs k hj hk
  beta_reduce
  have hlen : (bs.take k).length = k := List.length_take_of_le hk
  obtain h | h := he bs k hj hk
  · exact .inl (by rw [h]; rfl)
  · cases ha : e bs with
    | error x => exact .inr (by rw [h, ha]; rfl)
    | ok a =>
      have hnext : next a ≤ (bs.take k).length := hin _ (hlen.symm ▸ hj) a (h.trans ha)
      rw [h, ha]
      exact hf a bs k (hlen ▸ hnext) hk

theorem CutFrom.ite {c : Prop} [Decidable c] {a b : List Byte → Except Trap α} (ha : CutFrom ip j a)
    (hb : CutFrom ip j b) : CutFrom ip j fun bs => if c then a bs else b bs := by
  by_cases h : c
  · simpa only [if_pos h] using ha
  · simpa only [if_neg h] using hb

end Cut

section Decoders

variable (ip : Nat)

theorem fetchByte_cut (j : Nat) : CutFrom ip j fun bs => fetchByte ip bs j := by
  intro bs k hj _
  obtain rfl | hlt := Nat.eq_or_lt_of_le hj
  · exact .inl (fetchByte_past ip _ _ (List.length_take_le _ _))
  · exact .inr (by simp only [fetchByte, List.getElem?_take_of_lt hlt])

/-- What is decoded from the byte at index j on. -/
theorem byte_cut {β : Type} (j : Nat) {f : Byte → List Byte → Except Trap β} (hf : ∀ b, CutFrom ip (j + 1) (f b)) :
    CutFrom ip j fun bs => fetchByte ip bs j >>= fun b => f b bs :=
  (fetchByte_cut ip j).bind (fun bs _ => fetchByte_inside ip bs j) hf

theorem fetchWord_cut (j : Nat) : CutFrom ip j fun bs => fetchWord ip bs j :=
  byte_cut ip j fun _ => byte_cut ip (j + 1) fun _ => .const _

theorem decRM_cut (m : Byte) (w : Width) : CutFrom ip 2 fun bs => decRM ip bs m w :=
  have word (mk : Word → RM) : CutFrom ip 2 fun bs => fetchWord ip bs 2 >>= fun v => pure (mk v) :=
    (fetchWord_cut ip 2).bind (fun bs _ => fetchWord_inside ip bs 2) fun _ => .const _
  .ite (.const _) <| .ite (.ite (word _) (.const _)) <| .ite (byte_cut ip 2 fun _ => .const _) (word _)

theorem decImm_cut (j : Nat) (s : Bool) (w : Width) : CutFrom ip j fun bs => decImm ip bs j s w := by
  cases w with
  | byte => exact byte_cut ip j fun _ => .const _
  | word =>
    cases s with
    | false => exact fetchWord_cut ip j
    | true => exact byte_cut ip j fun _ => .const _

/-- What is decoded from the r/m operand's displacement on. -/
theorem rm_cut (m : Byte) (w : Width) {f : RM → List Byte → Except Trap Instr}
    (hf : ∀ rm, CutFrom ip (2 + rm.dispBytes) (f rm)) :
    CutFrom ip 2 fun bs => decRM ip bs m w >>= fun rm => f rm bs :=
  (decRM_cut ip m w).bind (fun bs h => decRM_inside ip bs m w h) hf

/-- An instruction that ends with its immediate. -/
theorem imm_cut (j : Nat) (s : Bool) (w : Width) (mk : Word → Instr) :
    CutFrom ip j fun bs => decImm ip bs j s w >>= fun imm => pure (mk imm) :=
  (decImm_cut ip j s w).bind (fun bs _ => decImm_inside ip bs j s w) fun _ => .const _

theorem decRmReg_cut (mk : Dir → Width → Reg → RM → Instr) (d : Dir) (w : Width) :
    CutFrom ip 1 fun bs => decRmReg mk d w ip bs :=
  byte_cut ip 1 fun m => rm_cut ip m w fun _ => .const _

theorem decMovImmRm_cut (w : Width) : CutFrom ip 1 fun bs => decMovImmRm w ip bs :=
  byte_cut ip 1 fun m => rm_cut ip m w fun _ => imm_cut ip _ false w _

theorem decGrp1_cut (p : Grp1OtherPolicy) (s : Bool) (w : Width) : CutFrom ip 1 fun bs => decGrp1 p s w ip bs :=
  byte_cut ip 1 fun m => (CutFrom.const (grp1Op p s (regField m))).bind (next := fun _ => 2) (fun _ h _ _ => h)
    fun mk => rm_cut ip m w fun rm => imm_cut ip _ s w (mk w rm)

theorem decAccMem_cut (mk : Width → Word → Instr) (w : Width) : CutFrom ip 1 fun bs => decAccMem mk w ip bs :=
  (fetchWord_cut ip 1).bind (fun bs _ => fetchWord_inside ip bs 1) fun _ => .const _

theorem dispatch_cut (p : Grp1OtherPolicy) (b0 : Byte) : CutFrom ip 1 (dispatch p ip b0) := by
  unfold dispatch
  cases jtab b0 with
  | some mk => exact byte_cut ip 1 fun _ => .const _
  | none =>
    exact .ite (decMovImmRm_cut ip _) <|
      .ite (decAccMem_cut ip _ _) <| .ite (decAccMem_cut ip _ _) <|
      .ite (imm_cut ip 1 false _ _) <| .ite (imm_cut ip 1 false _ _) <| .ite (imm_cut ip 1 false _ _) <|
      .ite (decRmReg_cut ip _ _ _) <| .ite (decRmReg_cut ip _ _ _) <|
      .ite (decRmReg_cut ip _ _ _) <| .ite (decRmReg_cut ip _ _ _) <|
      .ite (decGrp1_cut ip p _ _) <| .ite (imm_cut ip 1 false _ _) (.const _)

theorem decode_cut (p : Grp1OtherPolicy) : CutFrom ip 0 (decode p ip) :=
  byte_cut ip 0 fun b0 => dispatch_cut ip p b0

end Decoders

/-- Settles O21: a cut that did not fault would leave room for the whole instruction. -/
theorem cutInstructionIsTruncated : Obligations.CutInstructionIsTruncated := by
  intro p ip i k wf hk
  have hlen : (encode i).length = i.size := (Laws.EncodedSize.holds i).1
  obtain h | h := decode_cut ip p (encode i) k (Nat.zero_le k) (by omega)
  · exact h
  · have hi : decode p ip (encode i) = .ok i := by simpa using decode_encode p ip i [] wf
    have hin : i.size ≤ ((encode i).take k).length := decode_inside p ip _ i (h.trans hi)
    rw [List.length_take] at hin
    omega

end Sys2Proof.Machine
end

section
/-! The decoded-instruction record, form by form (30_encoding.md R52, R53, R58 to R66). -/

namespace Sys2Proof.Machine

theorem immBytes_false (w : Width) : immBytes false w = w.bytes := by cases w <;> rfl

/-- An immediate is held zero-extended (30_encoding.md R53). -/
theorem immOperand_value (imm : Word) : ∃ v : DWord, v.toNat = imm.toNat ∧ immOperand imm = .imm v :=
  ⟨imm.setWidth 32, BitVec.toNat_setWidth_of_le (by decide), rfl⟩

/-- A relative displacement is held sign-extended (30_encoding.md R65). -/
theorem relOperand_value (rel : Byte) : ∃ r : DWord, r.toInt = rel.toInt ∧ relOperand rel = .rel r :=
  ⟨rel.signExtend 32, BitVec.toInt_signExtend_of_le (by decide), rfl⟩

theorem sext16_toInt (d : Byte) : (sext16 d).toInt = d.toInt := BitVec.toInt_signExtend_of_le (by decide)

theorem record_rmReg : ∀ p ∈ rmRegForms, ∀ (d : Dir) (w : Width) (reg : Reg) (rm : RM) (a : Nat),
    record (p.1 d w reg rm) a = rmRegRecord p.2 d w reg rm (2 + rm.dispBytes) a := by
  simp only [rmRegForms, List.forall_mem_cons]
  exact ⟨fun _ _ _ _ _ => rfl, fun _ _ _ _ _ => rfl, fun _ _ _ _ _ => rfl, fun _ _ _ _ _ => rfl, nofun⟩

theorem record_grp1 : ∀ p ∈ grp1Forms, ∀ (s : Bool) (w : Width) (rm : RM) (imm : Word) (a : Nat),
    record (p.1 s w rm imm) a = ⟨a, 2 + rm.dispBytes + immBytes s w, p.2, RM.operand rm, immOperand imm, w⟩ := by
  simp only [grp1Forms, List.forall_mem_cons]
  exact ⟨fun _ _ _ _ _ => rfl, fun _ _ _ _ _ => rfl, fun _ _ _ _ _ => rfl, nofun⟩

theorem record_immAcc : ∀ p ∈ immAccForms, ∀ (w : Width) (imm : Word) (a : Nat),
    record (p.1 w imm) a = ⟨a, 1 + immBytes false w, p.2, .reg (accReg w), immOperand imm, w⟩ := by
  simp only [immAccForms, List.forall_mem_cons]
  exact ⟨fun _ _ _ => rfl, fun _ _ _ => rfl, fun _ _ _ => rfl, nofun⟩

theorem record_jump : ∀ p ∈ jumpForms, ∀ (rel : Byte) (a : Nat), record (p.1 rel) a = jumpRecord p.2 rel a := by
  simp only [jumpForms, List.forall_mem_cons]
  iterate 20 refine ⟨fun _ _ => rfl, ?_⟩
  nofun

/-- Settles O47, form by form. -/
theorem recordOfEachForm : Obligations.RecordOfEachForm := by
  refine ⟨fun p hp w reg rm a => ⟨record_rmReg p hp .toRm w reg rm a, record_rmReg p hp .toReg w reg rm a⟩,
    fun enc w rm imm a => ?_, fun p hp s w rm imm a => ?_, fun w reg imm a => ?_, fun p hp imm a => ?_,
    fun addr a => ⟨rfl, rfl, rfl, rfl⟩, fun p hp rel a => ?_, fun r => rfl, fun addr => rfl, fun b => rfl,
    fun b d => ⟨sext16 d, sext16_toInt d, rfl⟩, fun b d => rfl⟩
  · obtain ⟨v, hv, e⟩ := immOperand_value imm
    exact ⟨v, hv, by rw [← e]; rfl⟩
  · obtain ⟨v, hv, e⟩ := immOperand_value imm
    exact ⟨v, hv, by rw [← e, record_grp1 p hp]⟩
  · obtain ⟨v, hv, e⟩ := immOperand_value imm
    exact ⟨v, hv, by rw [← e, ← immBytes_false]; rfl⟩
  · obtain ⟨v, hv, e⟩ := immOperand_value imm
    exact ⟨v, hv, by rw [← e, record_immAcc p hp .byte]; rfl, by rw [← e, record_immAcc p hp .word]; rfl⟩
  · obtain ⟨r, hr, e⟩ := relOperand_value rel
    exact ⟨r, hr, by rw [← e, record_jump p hp]; rfl⟩

end Sys2Proof.Machine
end

section
/-! The sequencer: how a run ends, where a completed step leaves `ip`, and operand access by kind (40_sequencer.md R83
to R90). -/

namespace Sys2Proof.Machine

/-! ### The end of a run (40_sequencer.md R83, R84) -/

/-- A step that finds `ip = n` ends the run. -/
theorem step_of_ip_eq_n {s : State} (hrun : s.status.run = .running) (hip : s.ip = s.n) : step s = .next s.finish := by
  rw [step, hrun]
  exact if_pos hip

theorem State.finish_execute {s : State} (h : s.mode = .execute) : s.finish = s.halt.emit s.finalDump := by
  rw [State.finish, h]

theorem State.finish_decodeOnly {s : State} (h : s.mode = .decodeOnly) : s.finish = s.halt := by
  rw [State.finish, h]

/-- Settles O11, by the mode latch: the dump's cells are their images. -/
theorem runHaltsAtItsEnd : Obligations.RunHaltsAtItsEnd := by
  intro s hrun hip
  rw [step_of_ip_eq_n hrun hip]
  refine ⟨fun hmode => ?_, fun hmode => ?_⟩
  · obtain ⟨cells, hdump, hshows⟩ := s.finalDump_shows
    rw [State.finish_execute hmode, hdump]
    exact ⟨cells, rfl, hshows⟩
  · rw [State.finish_decodeOnly hmode]
    rfl

/-- Settles O12, by the two ended values of `STATE`. -/
theorem noStepAfterTheEnd : Obligations.NoStepAfterTheEnd := by
  intro s
  constructor <;> intro h <;> rw [step, h]

/-! ### Where a completed step leaves `ip` (40_sequencer.md R86 to R88) -/

/-- An execution faults, goes on past the instruction, or branches to its target in 0..n. -/
theorem ExecCase.fault_or_ip {i : Instr} {s t : State} (c : ExecCase i s t) :
    t.status.run = .faulted ∨ t.ip = s.ip + i.size ∨
      ∃ rel, (record i s.ip).dst = relOperand rel ∧ TargetInRange s rel ∧ (t.ip : Int) = s.ip + 2 + rel.toInt := by
  cases c with
  | fault x e => exact .inl (by rw [e, State.raise_status])
  | move _ v _ e => exact .inr (.inl (by rw [e, State.advance_ip, (s.writeOp_rest _ _ v).ip]))
  | sub _ v z f _ e =>
    exact .inr (.inl (by rw [e, State.advance_ip, State.setFlags_ip, (s.writeOp_rest _ _ v).ip]))
  | cmp _ z f e => exact .inr (.inl (by rw [e, State.advance_ip, State.setFlags_ip]))
  | jump _ size u _ j e target =>
    rw [e, State.setIp_ip, size]
    obtain rfl | ⟨rel, hdst, hin, rfl⟩ := target
    · exact .inr (.inl rfl)
    · exact .inr (.inr ⟨rel, hdst, hin, Int.toNat_of_nonneg hin.1⟩)

/-- Emitting the trace leaves `ip`. -/
@[simp] theorem State.traced_ip (s : State) (i : Instr) (u : State) : (s.traced i u).ip = u.ip := by
  obtain h | ⟨r, h⟩ := s.traced_eq i u <;> rw [h]
  exact u.emit_ip r

/-- Settles O15, over what the execution can leave. -/
theorem completedStepAdvancesOrBranches : Obligations.CompletedStepAdvancesOrBranches := by
  intro s t i _ hmode hip hd hstep hrun
  obtain ⟨u, c, rfl⟩ := step_executes hmode hip hd hstep
  rw [State.traced_status] at hrun
  rw [State.traced_ip]
  exact c.fault_or_ip.resolve_left hrun

/-! ### Operand access by kind (40_sequencer.md R89, R90) -/

theorem readKindTrap_readable {op : Operand} (h : op.readable = true) (i : DWord) : readKindTrap i op = none := by
  cases op with
  | reg | mem | imm => rfl
  | rel | none => cases h

theorem readKindTrap_unreadable {op : Operand} (h : op.readable = false) (i : DWord) :
    readKindTrap i op = some ⟨.unsupportedOperand, i⟩ := by
  cases op with
  | reg | mem | imm => cases h
  | rel | none => rfl

theorem writeKindTrap_writable {op : Operand} (h : op.writable = true) : writeKindTrap op = none := by
  cases op with
  | reg | mem => rfl
  | imm | rel | none => cases h

theorem writeKindTrap_unwritable {op : Operand} (h : op.writable = false) :
    writeKindTrap op = some ⟨.unsupportedOperand, 0⟩ := by
  cases op with
  | reg | mem => cases h
  | imm | rel | none => rfl

/-- The low W bits of a held value, as a number. -/
theorem truncW_toNat (w : Width) (v : DWord) : (truncW w v).toNat = v.toNat % 2 ^ w.bits := by
  cases w with
  | byte => exact (BitVec.toNat_setWidth_of_le (by decide)).trans (BitVec.toNat_setWidth 8 v)
  | word => exact BitVec.toNat_setWidth 16 v

/-- In `mov`, `add` and `sub` the checks on the operands' kinds come before every other fault (D20, log 6). -/
theorem movAddSub_of_kindTrap {I : Instruction} {info : DWord}
    (h : (writeKindTrap I.dst).or (readKindTrap 1 I.src) = some ⟨.unsupportedOperand, info⟩) (s : State) :
    ∀ body ∈ [execMov, execAdd, execSub], body I s = .next (faultState s .unsupportedOperand info) := by
  have hmov : s.movTrap I = some ⟨.unsupportedOperand, info⟩ := by
    rw [State.movTrap, ← Option.or_assoc, h, Option.some_or]
  have halu : s.aluTrap I = some ⟨.unsupportedOperand, info⟩ := by
    rw [State.aluTrap, ← Option.or_assoc, h, Option.some_or]
  simp only [List.forall_mem_cons, execMov, execAdd, execSub, hmov, halu, State.complete_some, State.raise_eq, true_and]
  nofun

/-- `cmp` checks both operands' kinds as it reads them, before every other fault (D20, log 6). -/
theorem execCmp_of_kindTrap {I : Instruction} {info : DWord}
    (h : (readKindTrap 0 I.dst).or (readKindTrap 1 I.src) = some ⟨.unsupportedOperand, info⟩) (s : State) :
    execCmp I s = .next (faultState s .unsupportedOperand info) := by
  have hcmp : s.cmpTrap I = some ⟨.unsupportedOperand, info⟩ := by
    rw [State.cmpTrap, ← Option.or_assoc, h, Option.some_or]
  rw [execCmp, hcmp, State.complete_some, State.raise_eq]

/-- Settles O48: the values by kind, and the faults by the first operand whose kind is not readable. -/
theorem readOpOfEachKind : Obligations.ReadOpOfEachKind := by
  refine fun s => ⟨fun w r => rfl, fun w sel d => rfl, fun v => ⟨truncW_toNat .byte v, truncW_toNat .word v⟩,
    fun I => ⟨fun hsrc hdst => movAddSub_of_kindTrap ?_ s, fun hsrc hdst => execCmp_of_kindTrap ?_ s,
      fun hdst => execCmp_of_kindTrap ?_ s⟩⟩
  · rw [writeKindTrap_writable hdst, readKindTrap_unreadable hsrc, Option.none_or]
  · rw [readKindTrap_readable hdst, readKindTrap_unreadable hsrc, Option.none_or]
  · rw [readKindTrap_unreadable hdst, Option.some_or]

/-- No execution raises `UNSUPPORTED_OPERAND` (40_sequencer.md R90): a fault is one of three others, and a completed
execution keeps the status record. -/
theorem ExecCase.code_ne_unsupportedOperand {i : Instr} {s t : State} (c : ExecCase i s t)
    (h : s.status.code ≠ .unsupportedOperand) : t.status.code ≠ .unsupportedOperand := by
  cases c with
  | fault x e code =>
    rw [e, State.raise_status]
    obtain ⟨hc, -⟩ | hc | hc := code <;> simp [hc]
  | move _ v _ e => rwa [e, State.advance_status, (s.writeOp_rest _ _ v).fixed.status]
  | sub _ v z f _ e => rwa [e, State.advance_status, State.setFlags_status, (s.writeOp_rest _ _ v).fixed.status]
  | cmp _ z f e => rwa [e, State.advance_status, State.setFlags_status]
  | jump _ _ u upd j e => obtain rfl | ⟨v, rfl, -⟩ := upd <;> exact e ▸ h

/-- Settles O49: the writes by kind, the destination's check before all others, and no such fault from `exec`. -/
theorem writeOpOfEachKind : Obligations.WriteOpOfEachKind := by
  refine ⟨fun s w v => ⟨fun r => rfl, fun sel d => rfl⟩, fun I s hdst => movAddSub_of_kindTrap ?_ s,
    fun i s t h => (exec_cases i s t h).code_ne_unsupportedOperand⟩
  rw [writeKindTrap_unwritable hdst, Option.some_or]

end Sys2Proof.Machine
end

section
/-! `mov` completes: one argument for every instruction whose operation is `mov`, then its five forms (41_mov.md R163,
R97 to R101). -/

namespace Sys2Proof.Machine

/-- Both directions of format RM have the operation of their opcode (30_encoding.md R58). -/
@[simp] theorem rmRegRecord_op (op : Op) (d : Dir) (w : Width) (reg : Reg) (rm : RM) (size a : Nat) :
    (rmRegRecord op d w reg rm size a).op = op := by
  cases d <;> rfl

/-- Going on past the instruction leaves what an operand write wrote. -/
theorem Written.advance {s t : State} {w : Width} {dst : Operand} {v : Word} (h : Written s t w dst v) (j : Nat) :
    Written s (t.advance j) w dst v := h.congr rfl rfl rfl rfl

/-- A `mov` whose reads all have values is its operand write and the advance of `ip` (41_mov.md R163). -/
theorem exec_mov_of_reads {i : Instr} {s : State} (hop : (record i s.ip).op = .mov)
    (hreads : ∀ l ∈ s.movReads (record i s.ip), s.hasValue l = true) :
    exec i s = .next ((s.writeOp (record i s.ip).wide (record i s.ip).dst
      (s.readOp (record i s.ip).wide (record i s.ip).src)).advance i.size) := by
  rw [exec_mov i s hop, execMov, movTrap_record i s hop, (s.readTrap_none _).2 hreads, State.complete_none, record_size]

theorem movCompletes_of_op {i : Instr} (hop : ∀ a, (record i a).op = .mov) : MovCompletes i := by
  intro s hreads
  obtain ⟨kind, -, -⟩ := record_kinds i s.ip (.inl (hop s.ip))
  obtain ⟨fixed, flags, hip⟩ := s.writeOp_rest (record i s.ip).wide (record i s.ip).dst
    (s.readOp (record i s.ip).wide (record i s.ip).src)
  refine ⟨_, exec_mov_of_reads (hop s.ip) hreads, (s.writeOp_written _ _ _ kind).advance _, flags.advance _,
    fixed.advance _, ?_⟩
  rw [State.advance_ip, hip]

/-- Settles O33: the operation of each of the five forms is `mov`. -/
theorem movFormsComplete : Obligations.MovFormsComplete :=
  ⟨fun d w reg rm => movCompletes_of_op fun a => rmRegRecord_op .mov d w reg rm (2 + rm.dispBytes) a,
    fun _ _ _ _ => movCompletes_of_op fun _ => rfl, fun _ _ _ => movCompletes_of_op fun _ => rfl,
    fun _ _ => movCompletes_of_op fun _ => rfl, fun _ _ => movCompletes_of_op fun _ => rfl⟩

end Sys2Proof.Machine
end

section
/-! The difference of `sub` and `cmp`: what it is as a number, and how far it fixes the flags (42_add_sub_cmp.md R103). -/

namespace Sys2Proof

theorem loByte_toNat (v : Word) : (loByte v).toNat = v.toNat % 256 := by
  rw [loByte, BitVec.extractLsb'_toNat, Nat.shiftRight_zero]

theorem zext16_toNat (b : Byte) : (zext16 b).toNat = b.toNat := BitVec.toNat_setWidth_of_le (by decide)

end Sys2Proof

namespace Sys2Proof.Machine

theorem aluSub_word_toNat (a b : Word) :
    ((aluSub .word a b).toNat : Int) = ((a.toNat : Int) - b.toNat) % 65536 := by
  have hsub : (aluSub .word a b).toNat = (2 ^ 16 - b.toNat + a.toNat) % 2 ^ 16 := BitVec.toNat_sub a b
  omega

/-- The byte difference reads the low bytes alone, whatever stands above them. -/
theorem aluSub_byte_toNat (a b : Word) :
    ((aluSub .byte a b).toNat : Int) = ((a.toNat : Int) - b.toNat) % 256 := by
  have hsub : (aluSub .byte a b).toNat = (2 ^ 8 - (loByte b).toNat + (loByte a).toNat) % 2 ^ 8 :=
    (zext16_toNat _).trans (BitVec.toNat_sub _ _)
  rw [loByte_toNat, loByte_toNat] at hsub
  omega

theorem subZf_congr {w : Width} {a b a' b' : Word} (h : aluSub w a b = aluSub w a' b') :
    subZf w a b = subZf w a' b' := by rw [subZf, subZf, h]

/-- SF is a bit of the difference itself, but for bytes under `bit15_zext` (R104, decision D17). -/
theorem subSf_congr {rule : ByteSfRule} {w : Width} {a b a' b' : Word} (hw : w = .word ∨ rule = .msb8)
    (h : aluSub w a b = aluSub w a' b') : subSf rule w a b = subSf rule w a' b' := by
  cases w with
  | word => exact congrArg (BitVec.getLsbD · 15) h
  | byte =>
    obtain rfl : rule = .msb8 := by simpa using hw
    exact congrArg (BitVec.getLsbD · 7) h

/-- Settles O31: both widths by the wrap of `BitVec` subtraction, and the flags as functions of the difference. -/
theorem aluSubWraps : Obligations.AluSubWraps :=
  ⟨fun a b => ⟨aluSub_word_toNat a b, fun _ _ => aluSub_byte_toNat a b⟩, rfl, rfl,
    fun _ _ _ _ _ _ h => ⟨subZf_congr h, fun hw => subSf_congr hw h⟩⟩

end Sys2Proof.Machine
end

section
/-! `add`, `sub` and `cmp` complete: one argument for every instruction of the operation, then its three forms
(42_add_sub_cmp.md R164, R105 to R113). -/

namespace Sys2Proof.Machine

/-! ### Writing the flags -/

theorem Written.setFlags {s t : State} {w : Width} {dst : Operand} {v : Word} (h : Written s t w dst v) (z f : Bool) :
    Written s (t.setFlags z f) w dst v := h.congr rfl rfl rfl rfl

theorem State.setFlags_flagsAre (s : State) (z f : Bool) : FlagsAre (s.setFlags z f) z f := ⟨rfl, rfl, rfl, rfl⟩

theorem FlagsAre.advance {t : State} {z f : Bool} (h : FlagsAre t z f) (j : Nat) : FlagsAre (t.advance j) z f :=
  ⟨h.zf, h.sf, h.zfKnown, h.sfKnown⟩

/-- An operand write keeps the parameters, so SF still follows the `BYTE_SF_RULE` of the start. -/
theorem State.writeOp_subFlags (s : State) (w : Width) (dst : Operand) (v a b : Word) :
    (s.writeOp w dst v).subFlags w a b =
      (s.writeOp w dst v).setFlags (subZf w a b) (subSf s.cfg.byteSfRule w a b) := by
  rw [State.subFlags, (s.writeOp_rest w dst v).fixed.cfg]

/-! ### Every instruction of an operation: its reads have values, so no fault stops its body -/

theorem addCompletes_of_op {i : Instr} (hop : ∀ a, (record i a).op = .add) : AddCompletes i := by
  intro s hreads
  have hexec := exec_add i s (hop s.ip)
  rw [execAdd, aluTrap_record i s (.inl (hop s.ip)), (s.readTrap_none _).2 hreads, State.complete_none,
    record_size] at hexec
  obtain ⟨kind, -, -⟩ := record_kinds i s.ip (.inr (.inl (hop s.ip)))
  obtain ⟨fixed, flags, hip⟩ := s.writeOp_rest (record i s.ip).wide (record i s.ip).dst _
  refine ⟨_, hexec, (s.writeOp_written _ _ _ kind).advance _, flags.advance _, fixed.advance _, ?_⟩
  rw [State.advance_ip, hip]

theorem subCompletes_of_op {i : Instr} (hop : ∀ a, (record i a).op = .sub) : SubCompletes i := by
  intro s hreads
  have hexec := exec_sub i s (hop s.ip)
  rw [execSub, aluTrap_record i s (.inr (hop s.ip)), (s.readTrap_none _).2 hreads, State.complete_none,
    record_size, State.writeOp_subFlags] at hexec
  obtain ⟨kind, -, -⟩ := record_kinds i s.ip (.inr (.inr (.inl (hop s.ip))))
  obtain ⟨fixed, -, hip⟩ := s.writeOp_rest (record i s.ip).wide (record i s.ip).dst _
  refine ⟨_, hexec, ((s.writeOp_written _ _ _ kind).setFlags _ _).advance _, (State.setFlags_flagsAre _ _ _).advance _,
    (fixed.setFlags _ _).advance _, ?_⟩
  rw [State.advance_ip, State.setFlags_ip, hip]

/-- `cmp` writes no operand: the flags and `ip` are all it changes. -/
theorem cmpCompletes_of_op {i : Instr} (hop : ∀ a, (record i a).op = .cmp) : CmpCompletes i := by
  intro s hreads
  have hexec := exec_cmp i s (hop s.ip)
  rw [execCmp, cmpTrap_record i s (hop s.ip), (s.readTrap_none _).2 hreads, State.complete_none, record_size] at hexec
  exact ⟨_, hexec, fun _ => ⟨rfl, rfl⟩, fun _ => rfl, (s.setFlags_flagsAre _ _).advance _,
    ((Fixed.refl s).setFlags _ _).advance _, rfl⟩

/-! ### The three forms of each -/

/-- Settles O34: the operation of each of the three forms is `add`. -/
theorem addFormsComplete : Obligations.AddFormsComplete :=
  ⟨fun d w reg rm => addCompletes_of_op (rmRegRecord_op .add d w reg rm (2 + rm.dispBytes)),
    fun _ _ _ _ => addCompletes_of_op fun _ => rfl, fun _ _ => addCompletes_of_op fun _ => rfl⟩

/-- Settles O35: the operation of each of the three forms is `sub`. -/
theorem subFormsComplete : Obligations.SubFormsComplete :=
  ⟨fun d w reg rm => subCompletes_of_op (rmRegRecord_op .sub d w reg rm (2 + rm.dispBytes)),
    fun _ _ _ _ => subCompletes_of_op fun _ => rfl, fun _ _ => subCompletes_of_op fun _ => rfl⟩

/-- Settles O36: the operation of each of the three forms is `cmp`. -/
theorem cmpFormsComplete : Obligations.CmpFormsComplete :=
  ⟨fun d w reg rm => cmpCompletes_of_op (rmRegRecord_op .cmp d w reg rm (2 + rm.dispBytes)),
    fun _ _ _ _ => cmpCompletes_of_op fun _ => rfl, fun _ _ => cmpCompletes_of_op fun _ => rfl⟩

end Sys2Proof.Machine
end

section
/-! Jumps and loops: a branch whose reads have values does what `BranchOutcome` says, and one that reads a byte or flag
with no value raises the fault of that read (43_jumps_loops.md R114, R115, R121, R124, R125, R132 to R135). -/

namespace Sys2Proof.Machine

/-! ### The reads of a branch -/

/-- The first byte or flag with no value is named, whether or not the branch would be taken (60_exceptions.md R142). -/
theorem State.branch_readFault {s : State} (pre : List Loc) {l : Loc} (post : List Loc)
    (hpre : ∀ x ∈ pre, s.hasValue x = true) (hl : s.hasValue l = false) (rel : Byte) (taken : Bool) (upd : State) :
    s.branch rel (pre ++ l :: post) taken upd = .next (faultState s .uninitialisedRead l.info) := by
  rw [State.branch, s.readTrap_first pre l post hpre hl, Option.some_or, State.complete_some, State.raise_eq]

/-- The reads of a branch that tests cx and then the flags `flags`. -/
theorem State.cxReads_haveValues {s : State} {flags : List Loc} (hlo : s.hasValue (.regLo .c) = true)
    (hhi : s.hasValue (.regHi .c) = true) (hflags : ∀ l ∈ flags, s.hasValue l = true) :
    ∀ l ∈ cellLocs .c ++ flags, s.hasValue l = true :=
  List.forall_mem_cons.2 ⟨hlo, List.forall_mem_cons.2 ⟨hhi, hflags⟩⟩

/-! ### `jne` -/

theorem exec_jne (rel : Byte) (s : State) : exec (.jne rel) s = s.branch rel [.zf] (!s.zf) s := rfl

/-- Settles O40: the bytes by the decoder's round trip and cut, the execution by what a branch on ZF does. -/
theorem jneBranches : Obligations.JneBranches := by
  refine ⟨fun p ip rel rest => ⟨decode_encode p ip (.jne rel) rest rfl, rfl,
    cutInstructionIsTruncated p ip (.jne rel) 1 rfl Nat.one_lt_two⟩, fun rel s => ?_⟩
  rw [exec_jne]
  have outcome (hz : s.hasValue .zf = true) : BranchOutcome (s.branch rel [.zf] (!s.zf) s) s rel (!s.zf) s :=
    s.branch_outcome rel _ _ s (List.forall_mem_singleton.2 hz)
  refine ⟨fun hz hzf => ?_, fun hz hzf => ?_, fun hz hzf => ?_, fun hz => ?_⟩
  · exact (outcome hz).1 (by rw [hzf]; rfl)
  · exact (outcome hz).2.1 (by rw [hzf]; rfl)
  · exact (outcome hz).2.2 (by rw [hzf]; rfl)
  · exact State.branch_readFault [] [] (List.forall_mem_nil _) hz rel _ s

/-! ### The branches that ZF, SF and cx decide, under `arch8086` -/

/-- A loop instruction over the view cx: its new value is not 0 iff the old one is not 1 (R133). -/
theorem State.loopBranch_eq (s : State) (rel : Byte) (flags : List Loc) (cond : Bool) :
    s.loopBranch rel flags cond = s.branch rel (cellLocs .c ++ flags) (decide (s.regRead .cx ≠ 1) && cond)
      (s.regWrite .cx (s.regRead .cx - 1)) := by
  have hzero : s.cell .c - 1 = 0 ↔ s.cell .c = 1 := sub_eq_zero
  have htest : (s.cell .c - 1 != 0) = decide (s.cell .c ≠ 1) := by
    rw [Bool.eq_iff_iff, bne_iff_ne, decide_eq_true_iff, ne_eq, hzero]
  rw [State.loopBranch, htest]
  rfl

section Arch

variable {s : State} (h : s.cfg.branchExec = .arch8086)

include h

theorem State.branchPolicy_arch (opcode : Byte) (arch : Result) : s.branchPolicy opcode arch = arch := by
  rw [State.branchPolicy, h]

theorem exec_je_arch (rel : Byte) : exec (.je rel) s = s.branch rel [.zf] s.zf s := State.branchPolicy_arch h 0x74 _

theorem exec_js_arch (rel : Byte) : exec (.js rel) s = s.branch rel [.sf] s.sf s := State.branchPolicy_arch h 0x78 _

theorem exec_jns_arch (rel : Byte) : exec (.jns rel) s = s.branch rel [.sf] (!s.sf) s :=
  State.branchPolicy_arch h 0x79 _

theorem exec_jcxz_arch (rel : Byte) :
    exec (.jcxz rel) s = s.branch rel (cellLocs .c) (decide (s.regRead .cx = 0)) s := State.branchPolicy_arch h 0xE3 _

theorem exec_loop_arch (rel : Byte) : exec (.loop rel) s = s.loopBranch rel [] true := State.branchPolicy_arch h 0xE2 _

theorem exec_loopz_arch (rel : Byte) : exec (.loopz rel) s = s.loopBranch rel [.zf] s.zf :=
  State.branchPolicy_arch h 0xE1 _

theorem exec_loopnz_arch (rel : Byte) : exec (.loopnz rel) s = s.loopBranch rel [.zf] (!s.zf) :=
  State.branchPolicy_arch h 0xE0 _

/-- The four that read cx read it first (log 6). -/
theorem exec_cxBranch_arch (rel : Byte) : ∀ i ∈ [Instr.jcxz rel, .loop rel, .loopz rel, .loopnz rel],
    ∃ flags taken upd, exec i s = s.branch rel (cellLocs .c ++ flags) taken upd := by
  simp only [List.mem_cons, List.not_mem_nil, or_false]
  rintro _ (rfl | rfl | rfl | rfl)
  · exact ⟨[], _, _, exec_jcxz_arch h rel⟩
  · exact ⟨_, _, _, exec_loop_arch h rel⟩
  · exact ⟨_, _, _, exec_loopz_arch h rel⟩
  · exact ⟨_, _, _, exec_loopnz_arch h rel⟩

/-- `loopz` and `loopnz` read ZF after cx (log 6). -/
theorem exec_zfLoop_arch (rel : Byte) : ∀ i ∈ [Instr.loopz rel, .loopnz rel],
    ∃ taken upd, exec i s = s.branch rel (cellLocs .c ++ [.zf]) taken upd := by
  simp only [List.mem_cons, List.not_mem_nil, or_false]
  rintro _ (rfl | rfl)
  · exact ⟨_, _, exec_loopz_arch h rel⟩
  · exact ⟨_, _, exec_loopnz_arch h rel⟩

end Arch

/-- Settles O44: under `arch8086` each of the four is a branch on the flag or cell it tests. -/
theorem flagBranchesUnderArch : Obligations.FlagBranchesUnderArch := by
  intro rel s h
  rw [exec_je_arch h, exec_js_arch h, exec_jns_arch h, exec_jcxz_arch h]
  exact ⟨fun hz => s.branch_outcome rel _ _ s (List.forall_mem_singleton.2 hz),
    fun hs => s.branch_outcome rel _ _ s (List.forall_mem_singleton.2 hs),
    fun hs => s.branch_outcome rel _ _ s (List.forall_mem_singleton.2 hs),
    fun hlo hhi => s.branch_outcome rel _ _ s (State.cxReads_haveValues hlo hhi (List.forall_mem_nil _))⟩

/-- Settles O45: under `arch8086` each loop is a branch whose other write is the decremented cx. -/
theorem loopsUnderArch : Obligations.LoopsUnderArch := by
  intro rel s h hlo hhi
  rw [exec_loop_arch h, exec_loopz_arch h, exec_loopnz_arch h]
  simp only [State.loopBranch_eq, Bool.decide_and, Bool.and_true, Bool.decide_eq_true, Bool.decide_eq_false]
  refine ⟨s.branch_outcome rel _ _ _ (State.cxReads_haveValues hlo hhi (List.forall_mem_nil _)), fun hz => ?_⟩
  have reads := State.cxReads_haveValues hlo hhi (List.forall_mem_singleton.2 hz)
  exact ⟨s.branch_outcome rel _ _ _ reads, s.branch_outcome rel _ _ _ reads⟩

/-- Settles O46: the first read with no value, at each of its places among the reads of the branch. -/
theorem branchReadOfNoValueFaults : Obligations.BranchReadOfNoValueFaults := by
  intro rel s h
  have none_before : ∀ l ∈ [], s.hasValue l = true := List.forall_mem_nil _
  rw [exec_je_arch h, exec_js_arch h, exec_jns_arch h]
  refine ⟨fun hz => State.branch_readFault [] [] none_before hz rel _ s,
    fun hs => ⟨State.branch_readFault [] [] none_before hs rel _ s,
      State.branch_readFault [] [] none_before hs rel _ s⟩, fun i hi => ?_, fun i hi hlo hhi hz => ?_⟩
  · obtain ⟨flags, taken, upd, e⟩ := exec_cxBranch_arch h rel i hi
    rw [e]
    exact ⟨fun hlo => State.branch_readFault [] (.regHi .c :: flags) none_before hlo rel taken upd,
      fun hlo hhi => State.branch_readFault [.regLo .c] flags (List.forall_mem_singleton.2 hlo) hhi rel taken upd⟩
  · obtain ⟨taken, upd, e⟩ := exec_zfLoop_arch h rel i hi
    rw [e]
    exact State.branch_readFault (cellLocs .c) [] (State.cxReads_haveValues hlo hhi none_before) hz rel taken upd

end Sys2Proof.Machine
end

section
/-! The decoder on whole encodings: the round trip, the opcode bytes 0x80-0x83 with a sub-operation outside the subset,
and the spec's own words and listings (30_encoding.md sections 4, 5 and 8, R72). -/

namespace Sys2Proof.Machine

/-- Settles O19: each family's sub-decoders read back the fields the encoder wrote. -/
theorem encodeThenDecode : Obligations.EncodeThenDecode := decode_encode

/-- The opcode bytes 0x80-0x83 select group 1 (30_encoding.md R60). -/
theorem dispatch_grp1 (p : Grp1OtherPolicy) (ip : Nat) {b0 : Byte} (bs : List Byte)
    (h : 0x80 ≤ b0.toNat ∧ b0.toNat ≤ 0x83) : dispatch p ip b0 bs = decGrp1 p (opS b0) (opW b0) ip bs := by
  have htop : top6 b0 = 0b100000 := (top6_eq_iff b0 _).2 (by simp only [BitVec.reduceToNat]; omega)
  have hd : ∀ s w, dispatch p ip (opcode6 0b100000 s w) bs = decGrp1 p s w ip bs := fun s w => by
    cases s <;> cases w <;> rfl
  rw [← hd, opcode6_of_top6 htop]

/-- Settles O23: under `fault` the sub-operation is checked right after byte 1; under `mov` it selects `mov`, and the
bytes read back as for every operation of group 1. -/
theorem otherSubOperations : Obligations.OtherSubOperations := by
  refine ⟨fun ip b0 m rest hb0 h0 h5 h7 => ?_, fun ip sx sub w rm imm rest h0 h5 h7 hrm himm => ⟨?_, fun a => rfl⟩⟩
  · have hop : grp1Op .fault (opS b0) (regField m) = .error ⟨.unsupportedSubop, (regField m).setWidth 32⟩ := by
      simp only [grp1Op, h0, h5, h7, if_false]
    have hm : fetchByte ip (b0 :: m :: rest) 1 = .ok m := fetchByte_append ip [b0] m rest
    rw [decode_cons, dispatch_grp1 _ _ _ hb0, decGrp1, hm]
    show (grp1Op .fault (opS b0) (regField m) >>= _) = _
    rw [hop]
    rfl
  · have hop : grp1Op .mov sx sub = .ok (.movImmRm (.grp1 sx sub)) := by simp only [grp1Op, h0, h5, h7, if_false]
    exact decode_encodeGrp1 hop (by rw [hrm, himm]; rfl)

/-! ### Words and listings written out from the spec -/

/-- Settles O24: each word is the encoding of its instruction. -/
theorem specWordsDecode : Obligations.SpecWordsDecode := by
  unfold Obligations.SpecWordsDecode
  decide

/-- Settles O25: the text of each record is evaluated. -/
theorem specListingsPrint : Obligations.SpecListingsPrint := by
  unfold Obligations.SpecListingsPrint
  decide

end Sys2Proof.Machine
end

section
/-! The start of a run (10_state.md section 7, 40_sequencer.md R81, R94, R95, 60_exceptions.md R145). -/

namespace Sys2Proof.Machine

/-- A program that fits starts the run from the state of 10_state.md R28 or R29. -/
theorem State.beginRun_of_fits {s : State} {bytes : List Byte} (h : bytes.length ≤ s.cfg.bufCap) (mode : Mode) :
    s.beginRun bytes mode = State.initial s.cfg (s.loadProgram bytes mode).pb bytes.length mode :=
  if_neg (Nat.not_lt.2 h)

/-- A program that does not fit is refused at that state (60_exceptions.md R145). -/
theorem State.beginRun_of_oversized {s : State} {bytes : List Byte} (h : s.cfg.bufCap < bytes.length) (mode : Mode) :
    s.beginRun bytes mode = (State.initial s.cfg (s.loadProgram bytes mode).pb bytes.length mode).raise
      ⟨.inputTooLarge, BitVec.ofNat 32 bytes.length⟩ :=
  if_pos h

/-- But for `PB`, the start of a run depends on the parameters, the program's length and the mode alone. -/
theorem State.beginRun_but_pb (s : State) (bytes : List Byte) (mode : Mode) :
    { s.beginRun bytes mode with pb := [] } = (State.initial s.cfg [] bytes.length mode).startRun := by
  by_cases h : bytes.length ≤ s.cfg.bufCap
  · rw [State.beginRun_of_fits h]
    exact (if_neg (Nat.not_lt.2 h)).symm
  · rw [State.beginRun_of_oversized (Nat.lt_of_not_le h)]
    exact (if_pos (Nat.lt_of_not_le h)).symm

/-- The part of the program that fits stands in `PB` from 0 on. -/
theorem State.beginRun_pbByte (s : State) (bytes : List Byte) (mode : Mode) {j : Nat} (hj : j < bytes.length)
    (hcap : j < s.cfg.bufCap) : (s.beginRun bytes mode).pbByte j = bytes[j] := by
  have hpb : (s.beginRun bytes mode).pbByte j = (s.loadProgram bytes mode).pbByte j := by
    unfold State.beginRun State.startRun
    split <;> rfl
  have hlen : j < (bytes.take s.cfg.bufCap).length := by
    rw [List.length_take]
    omega
  rw [hpb, State.loadProgram_pbByte, if_pos hlen, List.getElem?_eq_getElem hlen, Option.getD_some, List.getElem_take]

/-- Settles O1: the reset state is the start of a run of the empty program. -/
theorem resetMeetsInvariant : Obligations.ResetMeetsInvariant :=
  State.reset.startRun_inv (by decide) rfl

/-- Settles O4: the start state of R28, and the program's bytes in `PB`. -/
theorem runStartsFromZeroState : Obligations.RunStartsFromZeroState := by
  intro s bytes mode hzero hfits
  have start := State.beginRun_of_fits hfits mode
  have hcell (k : Cell) : (s.beginRun bytes mode).cell k = 0 := by
    rw [start]
    exact Cells.get_fill k 0
  have hdata (a : Nat) : (s.beginRun bytes mode).dataByte a = some 0 := by
    rw [start]
    exact congrArg unlistedByte hzero
  have hvalue (l : Loc) : (s.beginRun bytes mode).hasValue l = true := by
    rw [start]
    exact (State.initial _ _ _ _).hasValue_zero hzero l
  have hbytes (j : Nat) (hj : j < bytes.length) : bytes[j]? = some ((s.beginRun bytes mode).pbByte j) := by
    rw [s.beginRun_pbByte bytes mode hj (by omega), List.getElem?_eq_getElem hj]
  exact ⟨hcell, congrArg State.zf start, congrArg State.sf start, hdata, hvalue, congrArg State.ip start,
    congrArg State.status start, congrArg State.n start, s.beginRun_mode bytes mode, congrArg State.out start,
    (congrArg State.cfg start :), hbytes⟩

/-- Settles O5: the start state of R29, location by location. -/
theorem runStartsWithNoValues : Obligations.RunStartsWithNoValues := by
  intro s bytes mode hundef hfits
  rw [State.beginRun_of_fits hfits]
  refine ⟨fun l => ?_, rfl, rfl⟩
  cases l with
  | regLo k | regHi k => simp [State.hasValue, State.initial, hundef]
  | data a => simp [State.hasValue, State.initial, State.dataByte, Memory.read, Memory.lookup, unlistedByte, hundef]
  | zf | sf => simp [State.hasValue, State.initial, hundef]

/-- Settles O6: the refused run is the start state with the fault of R145. -/
theorem oversizedProgramRefused : Obligations.OversizedProgramRefused := by
  intro s bytes mode hbig
  rw [State.beginRun_of_oversized hbig]
  exact ⟨rfl, rfl, rfl⟩

/-- Settles O7: neither the start state but for `PB` nor the program's bytes depend on the state before. -/
theorem runsAreIndependent : Obligations.RunsAreIndependent := by
  intro s t bytes mode hcfg
  refine ⟨?_, fun j hj hcap => ?_⟩
  · rw [State.beginRun_but_pb, State.beginRun_but_pb, hcfg]
  · rw [s.beginRun_pbByte bytes mode hj hcap, t.beginRun_pbByte bytes mode hj (hcfg ▸ hcap)]

end Sys2Proof.Machine
end

section
/-! The sequencer: what a step of a decoded instruction is, and what a faulting step leaves (40_sequencer.md R82, R83,
60_exceptions.md R138 to R140). -/

namespace Sys2Proof.Machine

/-! ### A step of a decoded instruction -/

theorem step_of_decode_ok {s : State} {i : Instr} (hrun : s.status.run = .running) (hip : s.ip ≠ s.n)
    (h : s.decodeNext = .ok i) : step s = s.decodedStep i := by
  rw [step, hrun]
  show s.runningStep = _
  rw [State.runningStep, if_neg hip, h]

theorem State.decodedStep_execute {s : State} (h : s.mode = .execute) (i : Instr) : s.decodedStep i = s.execStep i := by
  rw [State.decodedStep, h]

theorem State.decodedStep_decodeOnly {s : State} (h : s.mode = .decodeOnly) (i : Instr) :
    s.decodedStep i = .next (s.listStep i) := by
  rw [State.decodedStep, h]

/-- The trace is emitted unless the execution faulted. -/
theorem State.traced_eq_ite (s : State) (i : Instr) (t : State) :
    s.traced i t = if t.status.run = .faulted then t else t.emit (traceOf (record i s.ip) s t) := by
  split
  · next h => exact s.traced_faulted i t h
  · next h => exact s.traced_completed i t h

/-- Settles O8: the step is `execStep`, whose answer follows that of `exec`. -/
theorem stepRunsDecodedInstruction : Obligations.StepRunsDecodedInstruction := by
  intro s i hrun hmode hip hd
  rw [step_of_decode_ok hrun hip hd, State.decodedStep_execute hmode, State.execStep]
  cases exec i s with
  | next t => exact congrArg Host.Outcome.next (s.traced_eq_ite i t)
  | fault f => rfl
  | refused r => rfl

/-- Settles O9: the step is `listStep`. -/
theorem decodeOnlyStepLists : Obligations.DecodeOnlyStepLists := by
  intro s i hrun hmode hip hd
  rw [step_of_decode_ok hrun hip hd, State.decodedStep_decodeOnly hmode]
  rfl

/-- Settles O10: in either mode the step raises the decoder's fault. -/
theorem decodeFaultWritesOnlyStatus : Obligations.DecodeFaultWritesOnlyStatus :=
  fun _ _ hrun hip hd => step_of_decode_error hrun hip hd

/-! ### A step that faults -/

/-- The faults that a step from `s` can raise: `UNINITIALISED_READ` only under `RESET_POLICY = undefined`. -/
def StepCode (s : State) (x : Trap) : Prop :=
  DecodeCode x ∨ (x.code = .uninitialisedRead ∧ s.cfg.resetPolicy = .undefined) ∨ x.code = .branchOutOfRange ∨
    x.code = .unimplementedBranch

theorem StepCode.ne_none {s : State} {x : Trap} (h : StepCode s x) : x.code ≠ .none := by
  obtain h | ⟨h, -⟩ | h | h := h
  · exact h.ne_none
  all_goals simp [h]

theorem StepCode.ne_uninitialisedRead {s : State} {x : Trap} (h : StepCode s x) (hz : s.cfg.resetPolicy = .zero) :
    x.code ≠ .uninitialisedRead := by
  obtain (h | h | h) | ⟨-, hp⟩ | h | h := h
  case inr.inl => cases hz.symm.trans hp
  all_goals simp [h]

/-- An execution that ends FAULTED has raised a fault, and has written nothing else. -/
theorem ExecCase.raised {i : Instr} {s t : State} (c : ExecCase i s t) (hrun : s.status.run = .running)
    (hf : t.status.run = .faulted) : ∃ x, t = s.raise x ∧ StepCode s x := by
  have completed (hs : t.status = s.status) : False := by
    rw [hs, hrun] at hf
    cases hf
  cases c with
  | fault x e code => exact ⟨x, e, .inr code⟩
  | move _ v _ e => exact (completed (by rw [e, State.advance_status, (s.writeOp_rest _ _ v).fixed.status])).elim
  | sub _ v z f _ e =>
    exact (completed (by rw [e, State.advance_status, State.setFlags_status,
      (s.writeOp_rest _ _ v).fixed.status])).elim
  | cmp _ z f e => exact (completed (by rw [e, State.advance_status, State.setFlags_status])).elim
  | jump _ _ u upd j e => exact (completed (by obtain rfl | ⟨v, rfl, -⟩ := upd <;> rw [e] <;> rfl)).elim

/-- A step that ends FAULTED has raised a fault, and has written nothing else. -/
theorem step_raised {s t : State} (hrun : s.status.run = .running) (h : step s = .next t)
    (hf : t.status.run = .faulted) : ∃ x, t = s.raise x ∧ StepCode s x := by
  cases (step_cases s t h).2 with
  | finish _ e =>
    rw [e] at hf
    obtain hs | hs := s.finish_eq <;> rw [hs] at hf <;> cases hf
  | decodeFault _ x _ code e => exact ⟨x, e, .inl code⟩
  | listed _ i _ _ e =>
    rw [e] at hf
    cases hrun.symm.trans hf
  | executed _ i _ _ u _ c e =>
    rw [e, State.traced_status] at hf
    rw [e, State.traced_faulted _ _ _ hf]
    exact c.raised hrun hf

/-- Settles O13: the step is the raising of a fault. -/
theorem faultingStepIsPrecise : Obligations.FaultingStepIsPrecise := by
  intro s t hrun h hf
  obtain ⟨x, e, hx⟩ := step_raised hrun h hf
  exact ⟨x.code, x.info, hx.ne_none, e⟩

/-- Settles O17: of the faults a step can raise, that one needs `RESET_POLICY = undefined`. -/
theorem zeroPolicyNeverFaultsOnRead : Obligations.ZeroPolicyNeverFaultsOnRead := by
  intro s t hz hrun h hf
  obtain ⟨x, rfl, hx⟩ := step_raised hrun h hf
  exact hx.ne_uninitialisedRead hz

/-! ### The instruction placed at `ip` (log 22) -/

@[simp] theorem tableBytes_length (nbits w : Nat) : (tableBytes nbits w).length = maxLen := by
  simp only [tableBytes]
  split <;> rfl

/-- As many bytes as the longest instruction has, placed at `ip`, are all the decoder sees. -/
theorem State.placeAtIp_window (s : State) {bytes : List Byte} (h : bytes.length = maxLen) :
    (s.placeAtIp bytes).window = bytes := by
  have hlen : min maxLen ((s.placeAtIp bytes).n - (s.placeAtIp bytes).ip) = bytes.length := by
    show min maxLen (max s.n (s.ip + bytes.length) - s.ip) = bytes.length
    omega
  refine List.ext_getElem? fun k => ?_
  rw [State.window_getElem?, hlen]
  split
  · next hk =>
    have hbyte : (s.placeAtIp bytes).pbByte ((s.placeAtIp bytes).ip + k) = (bytes[k]?).getD 0 :=
      s.placeAtIp_pbByte bytes k hk
    rw [hbyte, List.getElem?_eq_getElem hk, Option.getD_some]
  · next hk => exact (List.getElem?_eq_none (Nat.le_of_not_lt hk)).symm

/-- What is well-formed under `GRP1_OTHER_POLICY = fault` is so under either value. -/
theorem Instr.wf_of_wf_fault {i : Instr} (h : i.wf .fault = true) (p : Grp1OtherPolicy) : i.wf p = true := by
  cases i with
  | movImmRm enc =>
    cases enc with
    | irm => exact h
    | grp1 => simp [Instr.wf, MovImmEnc.wf] at h
  | _ => exact h

/-- What decodes under `GRP1_OTHER_POLICY = fault` decodes alike under either value and at any address. -/
theorem decode_of_decode_fault {ip : Nat} {bs : List Byte} {i : Instr} (h : decode .fault ip bs = .ok i)
    (p : Grp1OtherPolicy) (ip' : Nat) : decode p ip' bs = .ok i := by
  obtain ⟨wf, -, -, -, henc⟩ := decodeThenEncode .fault ip bs i h
  have hd := decode_encode p ip' i (bs.drop i.size) (Instr.wf_of_wf_fault wf p)
  rwa [henc, List.take_append_drop] at hd

/-- The instruction of a table number is what its bytes decode to. -/
theorem decode_of_decodeTableWord {nbits w : Nat} {i : Instr} (h : decodeTableWord nbits w = some i) :
    decode .fault 0 (tableBytes nbits w) = .ok i := by
  unfold decodeTableWord at h
  split at h <;> simp_all

/-- Settles O18: the placed bytes are what the step decodes, in execute mode and before the end of the program. -/
theorem fetchWordRunsItsInstruction : Obligations.FetchWordRunsItsInstruction := by
  intro s nbits w i h
  have hlen := tableBytes_length nbits w
  have hd : (s.withFetchWord nbits w).decodeNext = .ok i := by
    rw [State.decodeNext, State.withFetchWord, State.placeAtIp_window s hlen]
    exact decode_of_decode_fault (decode_of_decodeTableWord h) _ _
  have hip : (s.withFetchWord nbits w).ip ≠ (s.withFetchWord nbits w).n := by
    show s.ip ≠ max s.n (s.ip + (tableBytes nbits w).length)
    simp only [hlen, maxLen]
    omega
  rw [step_of_decode_ok rfl hip hd, State.decodedStep_execute rfl]

end Sys2Proof.Machine
end

section
/-! Registers, data memory and effective addresses (10_state.md R17, 20_memory.md R35 to R40). -/

namespace Sys2Proof.Machine

/-! ### Register views (10_state.md R15, R17) -/

/-- A word view names the whole cell, a byte view one byte of it (R15). -/
theorem width_of_viewPart (r : Reg) : r.width = if viewPart r = .full then .word else .byte := by cases r <;> rfl

/-- What a view reads depends on its cell alone. -/
theorem State.regRead_congr {s t : State} {r : Reg} (h : t.cell (viewCell r) = s.cell (viewCell r)) :
    t.regRead r = s.regRead r := by
  rw [State.regRead, State.regRead, h]

/-- A view that holds v reads as v, a byte view as the low byte of v. -/
theorem ViewWritten.regRead {s t : State} {r : Reg} {v : Word} (h : ViewWritten s t r v) :
    t.regRead r = match r.width with
      | .byte => zext16 (loByte v)
      | .word => v := by
  unfold ViewWritten at h
  rw [State.regRead, width_of_viewPart]
  cases hp : viewPart r <;> rw [hp] at h
  case full =>
    obtain ⟨⟨hlo, -⟩, hhi, -⟩ := h
    show t.cell (viewCell r) = v
    rw [← joinBytes_hi_lo (t.cell _), hlo, hhi, joinBytes_hi_lo]
  case low | high =>
    obtain ⟨⟨hbyte, -⟩, -⟩ := h
    exact congrArg zext16 hbyte

/-- Settles O27: the view, the cells, and what no operand write touches; reading back is reading what is written. -/
theorem regWriteChangesOnlyTheView : Obligations.RegWriteChangesOnlyTheView := by
  intro s r v
  obtain ⟨hview, hcells, hmem⟩ := s.writeOp_written r.width (.reg r) v rfl
  obtain ⟨fixed, flags, hip⟩ := s.writeOp_rest r.width (.reg r) v
  exact ⟨hview, hcells, hmem, flags, fixed, hip, fun r' hr' => State.regRead_congr (hcells _ hr').1, hview.regRead⟩

/-! ### Data memory (20_memory.md R38 to R40) -/

@[simp] theorem State.memWrite_cfg (s : State) (w : Width) (a v : Word) : (s.memWrite w a v).cfg = s.cfg := by
  cases w <;> rfl

theorem State.memRead_byte {s : State} {a : Word} {b : Byte} (h : s.dataByte a.toNat = some b) :
    s.memRead .byte a = zext16 b := by
  rw [State.memRead, State.memByte, h, Option.getD_some]

/-- The second byte of a word access under `wrap16` (R38, decision D5). -/
theorem secondAddr_wrap16 (a : Word) : secondAddr .wrap16 a = (a.toNat + 1) % 65536 := BitVec.toNat_add a 1

/-- Settles O28: the bytes that `MemWrite` stores, at the second address of each policy. -/
theorem dataReadAfterWrite : Obligations.DataReadAfterWrite := by
  intro s a v
  have byte : (s.memWrite .byte a v).dataByte a.toNat = some (loByte v) := s.memWrite_written .byte a v
  obtain ⟨lo, hi⟩ : DataWritten s (s.memWrite .word a v) .word a v := s.memWrite_written .word a v
  have kept (b : Nat) (hb : b ≠ a.toNat) (hb2 : b ≠ secondAddr s.cfg.wordAtFFFF a) :
      (s.memWrite .word a v).dataByte b = s.dataByte b :=
    s.memWrite_kept .word a v b (by simp [State.accessAddrs, hb, hb2])
  refine ⟨State.memRead_byte byte, ?_, State.memRead_byte lo, fun b hb => ?_, fun hp => ?_, fun hp => ?_⟩
  · simp only [State.memRead, State.memByte, State.memWrite_cfg, lo, hi, Option.getD_some, joinBytes_hi_lo]
  · exact s.memWrite_kept .byte a v b (by simp [State.accessAddrs, hb])
  · rw [hp] at hi kept
    rw [← secondAddr_wrap16]
    exact ⟨hi, State.memRead_byte hi, kept⟩
  · rw [hp] at hi kept
    exact ⟨hi, kept⟩

/-! ### Effective addresses (20_memory.md R35, R36) -/

/-- The signed and the unsigned value of a word agree modulo 2^16. -/
theorem toInt_emod (d : Word) : d.toInt % 65536 = d.toNat := by
  have hlt := d.isLt
  have hmod : d.toInt % ((2 ^ 16 : Nat) : Int) = (d.toNat : Int) % ((2 ^ 16 : Nat) : Int) := by
    rw [BitVec.toInt_eq_toNat_bmod, Int.bmod_emod]
  omega

/-- A sum of words, as numbers: each addition wraps modulo 2^16, and so does the whole. -/
theorem foldl_add_toNat (l : List Word) (d : Word) :
    ((l.foldl (· + ·) d).toNat : Int) = ((l.map fun x => (x.toNat : Int)).sum + d.toInt) % 65536 := by
  induction l generalizing d with
  | nil => simp [toInt_emod]
  | cons x l ih =>
    have hd := toInt_emod d
    have hdx := toInt_emod (d + x)
    rw [BitVec.toNat_add] at hdx
    rw [List.foldl_cons, ih, List.map_cons, List.sum_cons]
    omega

/-- Settles O29: the registers of R35 are the cells of each selector, in order. -/
theorem effectiveAddressIsWrappedSum : Obligations.EffectiveAddressIsWrappedSum := by
  intro s d
  refine ⟨rfl, ?_⟩
  have sum (b : Base) (rs : List Reg) (h : rs.map s.regRead = (baseCells b).map s.cell) :
      ((s.ea (.base b) d).toNat : Int) = ((rs.map fun r => ((s.regRead r).toNat : Int)).sum + d.toInt) % 65536 := by
    have := foldl_add_toNat (rs.map s.regRead) d
    rw [List.map_map, h, List.foldl_map] at this
    exact this
  simp only [List.forall_mem_cons]
  exact ⟨sum .bxSi _ rfl, sum .bxDi _ rfl, sum .bpSi _ rfl, sum .bpDi _ rfl, sum .si _ rfl, sum .di _ rfl,
    sum .bp _ rfl, sum .bx _ rfl, nofun⟩

end Sys2Proof.Machine
end

section
/-! The sum and the flags of the ALU as facts about numbers (42_add_sub_cmp.md R102, R104). -/

namespace Sys2Proof.Machine

theorem aluAdd_byte_toNat (a b : Word) : (aluAdd .byte a b).toNat = (a.toNat + b.toNat) % 256 := by
  rw [aluAdd, zext16_toNat, BitVec.toNat_add, loByte_toNat, loByte_toNat]
  omega

/-- Settles O30: both widths by the wrap of `BitVec` addition. -/
theorem aluAddWraps : Obligations.AluAddWraps := fun a b => ⟨BitVec.toNat_add a b, fun _ _ => aluAdd_byte_toNat a b⟩

theorem subZf_word (a b : Word) : subZf .word a b = decide (a = b) := by
  rw [subZf, Bool.eq_iff_iff, beq_iff_eq, decide_eq_true_iff]
  exact sub_eq_zero

theorem subZf_byte {a b : Word} (ha : a.toNat < 256) (hb : b.toNat < 256) : subZf .byte a b = decide (a = b) := by
  have hsub := aluSub_byte_toNat a b
  have hzero : (0 : Word).toNat = 0 := rfl
  rw [subZf, Bool.eq_iff_iff, beq_iff_eq, decide_eq_true_iff, ← BitVec.toNat_inj, ← BitVec.toNat_inj]
  omega

/-- The top bit of a number below 2^(k+1). -/
theorem getLsbD_top {x : Word} {k : Nat} (h : x.toNat < 2 ^ (k + 1)) : x.getLsbD k = decide (2 ^ k ≤ x.toNat) := by
  by_cases hk : 2 ^ k ≤ x.toNat
  · rw [decide_eq_true hk]
    exact Nat.testBit_of_two_pow_le_and_two_pow_add_one_gt hk h
  · rw [decide_eq_false hk]
    exact Nat.testBit_lt_two_pow (Nat.lt_of_not_le hk)

theorem subSf_word (rule : ByteSfRule) (a b : Word) :
    subSf rule .word a b = decide (32768 ≤ ((a.toNat : Int) - b.toNat) % 65536) := by
  have htop : subSf rule .word a b = decide (2 ^ 15 ≤ (aluSub .word a b).toNat) := getLsbD_top (BitVec.isLt _)
  rw [htop, ← aluSub_word_toNat, decide_eq_decide]
  omega

theorem subSf_byte_msb8 (a b : Word) :
    subSf .msb8 .byte a b = decide (128 ≤ ((a.toNat : Int) - b.toNat) % 256) := by
  have hsub := aluSub_byte_toNat a b
  have htop : subSf .msb8 .byte a b = decide (2 ^ 7 ≤ (aluSub .byte a b).toNat) := getLsbD_top (by omega)
  rw [htop, ← hsub, decide_eq_decide]
  omega

/-- Under `bit15_zext` SF is that of the word difference of the zero-extended bytes, which wraps iff it borrows
(decision D17). -/
theorem subSf_byte_bit15Zext {a b : Word} (ha : a.toNat < 256) (hb : b.toNat < 256) :
    subSf .bit15Zext .byte a b = decide (a.toNat < b.toNat) := by
  have hword := subSf_word .bit15Zext (zext16 (loByte a)) (zext16 (loByte b))
  rw [zext16_toNat, zext16_toNat, loByte_toNat, loByte_toNat, Nat.mod_eq_of_lt ha, Nat.mod_eq_of_lt hb] at hword
  refine hword.trans ?_
  rw [decide_eq_decide]
  omega

/-- Settles O32, flag by flag. -/
theorem subFlagsOfOperands : Obligations.SubFlagsOfOperands :=
  ⟨fun rule a b => ⟨subZf_word a b, subSf_word rule a b⟩,
    fun a b ha hb => ⟨subZf_byte ha hb, subSf_byte_msb8 a b, subSf_byte_bit15Zext ha hb⟩⟩

end Sys2Proof.Machine
end

section
/-! `mov`, `add`, `sub` and `cmp` that read a byte with no value (10_state.md R29, 60_exceptions.md R142). -/

namespace Sys2Proof.Machine

/-- Settles O37: the fault of each operation is that of its reads, whose first byte with no value is named. -/
theorem readOfNoValueFaults : Obligations.ReadOfNoValueFaults := by
  intro i s pre l post hop hpre hl
  have trap := s.readTrap_first pre l post hpre hl
  obtain ⟨op, reads⟩ | ⟨op | op | op, reads⟩ := hop <;> rw [← reads] at trap
  · rw [exec_mov i s op, execMov, movTrap_record i s op, trap]
    rfl
  · rw [exec_add i s op, execAdd, aluTrap_record i s (.inl op), trap]
    rfl
  · rw [exec_sub i s op, execSub, aluTrap_record i s (.inr op), trap]
    rfl
  · rw [exec_cmp i s op, execCmp, cmpTrap_record i s op, trap]
    rfl

end Sys2Proof.Machine
end

section
/-! The jumps and loops other than `jne` by `BRANCH_EXEC_POLICY` (43_jumps_loops.md R116). -/

namespace Sys2Proof.Machine

theorem State.branchPolicy_fault {s : State} (h : s.cfg.branchExec = .fault) (opcode : Byte) (arch : Result) :
    s.branchPolicy opcode arch = s.unimplemented opcode := by
  rw [State.branchPolicy, h]

theorem State.branchPolicy_fallthrough {s : State} (h : s.cfg.branchExec = .fallthrough) (opcode : Byte)
    (arch : Result) : s.branchPolicy opcode arch = .next (s.advance 2) := by
  rw [State.branchPolicy, h]

/-- A jump that needs a flag the block lacks has no meaning of its own under `arch8086` either (R117 to R131). -/
theorem exec_flagless : ∀ p ∈ flaglessBranches, ∀ (rel : Byte) (s : State),
    exec (p.1 rel) s = s.branchPolicy p.2 (s.unimplemented p.2) := by
  simp only [flaglessBranches, List.forall_mem_cons]
  iterate 12 refine ⟨fun _ _ => rfl, ?_⟩
  nofun

theorem exec_decidable : ∀ p ∈ decidableBranches, ∀ (rel : Byte) (s : State),
    ∃ arch, exec (p.1 rel) s = s.branchPolicy p.2 arch := by
  simp only [decidableBranches, List.forall_mem_cons]
  iterate 7 refine ⟨fun _ _ => ⟨_, rfl⟩, ?_⟩
  nofun

/-- Each of the 19 goes by the policy, with its opcode byte (R116). -/
theorem exec_by_policy (p : (Byte → Instr) × Byte) (hp : p ∈ flaglessBranches ++ decidableBranches) (rel : Byte)
    (s : State) : ∃ arch, exec (p.1 rel) s = s.branchPolicy p.2 arch := by
  obtain hp | hp := List.mem_append.1 hp
  · exact ⟨_, exec_flagless p hp rel s⟩
  · exact exec_decidable p hp rel s

/-- Settles O41, by the policy. -/
theorem otherBranchesFaultByDefault : Obligations.OtherBranchesFaultByDefault := by
  intro p hp rel s h
  obtain ⟨arch, e⟩ := exec_by_policy p hp rel s
  rw [e, State.branchPolicy_fault h]
  rfl

/-- Settles O42, by the policy. -/
theorem otherBranchesFallThrough : Obligations.OtherBranchesFallThrough := by
  intro p hp rel s h
  obtain ⟨arch, e⟩ := exec_by_policy p hp rel s
  rw [e, State.branchPolicy_fallthrough h]
  rfl

/-- Settles O43: what they do under `arch8086` is the same fault. -/
theorem flaglessBranchesFaultUnderArch : Obligations.FlaglessBranchesFaultUnderArch := by
  intro p hp rel s h
  rw [exec_flagless p hp rel s, State.branchPolicy_arch h]
  rfl

end Sys2Proof.Machine
end
